-- ==== Sys2Proof/Word.lean ====
section
/-!
DEFINITION. The value types of the engine (00_scope.md R8, R9): bytes, 32-bit words, 10-bit tokens, and the two
five-word register sets (10_state.md R21, R22). All values are unsigned; bit 0 is the least significant bit.
-/

namespace Sys2Proof

/-- A byte, an unsigned integer in 0..255 (R8). -/
abbrev Byte := BitVec 8

/-- A word, an unsigned integer in 0..2^32-1 (R8). -/
abbrev Word := BitVec 32

/-- A command token or a response token, 10 bits (R60). -/
abbrev Token := BitVec 10

/-- A block: 64 bytes of the padded message, as a byte sequence (R11, R19). -/
abbrev Block := List Byte

/-- The running state h0..h4 (R21). -/
structure Running where
  h0 : Word
  h1 : Word
  h2 : Word
  h3 : Word
  h4 : Word
deriving DecidableEq, Repr

/-- One line's working registers A..E (R22). -/
structure LineRegs where
  A : Word
  B : Word
  C : Word
  D : Word
  E : Word
deriving DecidableEq, Repr

end Sys2Proof
end

