-- ==== Sys2Proof/Syntax.lean ====
section
/-!
DEFINITION. The whole instruction set: the four host commands (30_encoding.md R64, opcode_table.json).
The internal operations have no encoding (R72) and are functions of Machine/.
-/

namespace Sys2Proof

/-- A host command. `arg` is an operand of ABSORB and READ only (R63). -/
inductive Instr where
  /-- INIT, R151. -/
  | init
  /-- ABSORB b, R152: `b` is one message byte. -/
  | absorb (b : Byte)
  /-- FINAL, R153. -/
  | final
  /-- READ k, R154: `k` is a digest byte address. -/
  | read (k : Byte)
deriving DecidableEq, Repr

end Sys2Proof
end

