-- ==== Sys2Proof/WellFormed.lean ====
section
/-!
DEFINITION. Which terms of Instr are commands of the engine: exactly those with a legal token (30_encoding.md R64).
-/

namespace Sys2Proof

/-- The one operand constraint: READ's address is at most 19 (R63, R64). -/
def Instr.wellFormed : Instr → Bool
  | .init => true
  | .absorb _ => true
  | .final => true
  | .read k => decide (k.toNat ≤ 19)

end Sys2Proof
end

