-- ==== Sys2Proof/Decode.lean ====
section
/-!
DEFINITION. The decoder of command tokens, total on all 1024 of them and rejecting by name (30_encoding.md R61, R65,
R71), the encoder, its inverse on the 278 legal tokens, and the host's view of the decoder.
-/

namespace Sys2Proof

/-- Bits 9..8 of a token (R61). -/
def opField (t : Token) : BitVec 2 := t.extractLsb' 8 2

/-- Bits 7..0 of a token, an unsigned byte (R61, R63). -/
def argField (t : Token) : Byte := t.extractLsb' 0 8

/-- Format C: the token with value op x 256 + arg (R61). -/
def formatC (op : BitVec 2) (arg : Byte) : Token := BitVec.ofNat 10 (op.toNat * 256 + arg.toNat)

/-- The three kinds of reserved token (R65). R71 has one result RESERVED; the kind is a name only (log 18). -/
inductive Reserved where
  /-- op = 0 with arg not 0. -/
  | initArg
  /-- op = 2 with arg not 0. -/
  | finalArg
  /-- op = 3 with arg at least 20. -/
  | readArg
deriving DecidableEq, Repr

/-- The decoder's results (R71). -/
inductive Decoded where
  /-- A command. -/
  | instr (i : Instr)
  /-- RESERVED. -/
  | reserved (why : Reserved)
deriving DecidableEq, Repr

/-- R71: look at `op`, then at `arg`. -/
def decodeFields (op : BitVec 2) (arg : Byte) : Decoded :=
  if op = 0 then (if arg = 0 then .instr .init else .reserved .initArg)
  else if op = 1 then .instr (.absorb arg)
  else if op = 2 then (if arg = 0 then .instr .final else .reserved .finalArg)
  else (if arg.toNat ≤ 19 then .instr (.read arg) else .reserved .readArg)

/-- The decoder (R71). -/
def decode (t : Token) : Decoded := decodeFields (opField t) (argField t)

/-- The opcode of a command (R64). -/
def Instr.opcode : Instr → BitVec 2
  | .init => 0
  | .absorb _ => 1
  | .final => 2
  | .read _ => 3

/-- The `arg` byte of a command (R63, R64). -/
def Instr.operand : Instr → Byte
  | .init => 0
  | .absorb b => b
  | .final => 0
  | .read k => k

/-- The encoder: the token of a command (R71). -/
def encode (i : Instr) : Token := formatC i.opcode i.operand

/-- The value a table word has in its `nbits` bits; every bit above is 0. -/
def tableValue (nbits w : Nat) : Nat := w % 2 ^ nbits

/-- The host's view: the instruction the decoder reads from a table word. A word of more than 10 bits is no token. -/
def decodeTableWord (nbits w : Nat) : Option Instr :=
  if tableValue nbits w < 1024 then
    match decode (BitVec.ofNat 10 (tableValue nbits w)) with
    | .instr i => some i
    | .reserved _ => none
  else none

end Sys2Proof
end

