-- ==== Sys2Proof/Config.lean ====
section
/-!
DEFINITION. The parameters of 00_scope.md R7 that an implementation fixes and the meanings name. The constant tables
(R31) stand in Machine/Tables.lean. There is no free value: the spec leaves no instruction's result undefined.
-/

namespace Sys2Proof.Config

/-- The message length bound, exclusive, in bytes (R7, R24; 90_conflicts.md C3; log 11): the one named parameter. -/
def lenMax : Nat := 2 ^ 61

/-- The first padding byte (R7, R80). -/
def padByte : Byte := 0x80

/-- The fixed rotation of the register move, in bits (R7, R116). -/
def fixedRotate : Nat := 10

end Sys2Proof.Config
end

