-- ==== Sys2Proof/Machine/Arith.lean ====
section
/-!
DEFINITION. The arithmetic of the engine (41_compressor.md R100 to R103) and the little-endian conversions
(00_scope.md R11). Addition of words is `+` on BitVec 32, which is addition modulo 2^32 with the carry dropped (R100).
-/

namespace Sys2Proof

/-- Left rotation by n bits, as R10 and R101 print it for n in 0..31; the engine uses 5 ≤ n ≤ 15 only. For n of 32 or
more the spec gives no value and the model answers x. DESIGN CHOICE, log 12; no rule makes such a call. -/
def rol (x : Word) (n : Nat) : Word := (x <<< n) + (x >>> (32 - n))

/-- Complement within 32 bits (R102). -/
def not32 (x : Word) : Word := x ^^^ 0xFFFFFFFF

/-- The word whose little-endian bytes are b0, b1, b2, b3 (R11, R44). -/
def le32 (b0 b1 b2 b3 : Byte) : Word :=
  BitVec.ofNat 32 (b0.toNat + 2 ^ 8 * b1.toNat + 2 ^ 16 * b2.toNat + 2 ^ 24 * b3.toNat)

/-- Byte i of v: (v div 2^(8 i)) mod 256 (R11). -/
def byteOf (v i : Nat) : Byte := BitVec.ofNat 8 (v / 2 ^ (8 * i))

/-- The little-endian bytes of v, n of them, which R11 defines for v < 2^(8 n). For a larger v the model drops the bytes
above the n-th. DESIGN CHOICE, log 12; no rule makes such a call. -/
def bytesLE (v n : Nat) : List Byte := (List.range n).map (byteOf v)

/-- The number whose little-endian bytes these are: `bytesLE` read back. -/
def leValue : List Byte → Nat
  | [] => 0
  | b :: bs => b.toNat + 2 ^ 8 * leValue bs

end Sys2Proof
end

