-- ==== Sys2Proof/Machine/Framer.lean ====
section
/-!
DEFINITION. The padding/length framer's pure operations: PAD, SPLIT and PACK (40_framer.md R80 to R87).
The block-serial form the hardware performs (R88, R89) stands in Machine/Commands.lean.
-/

namespace Sys2Proof.Machine

/-- The number k of zero bytes: the least k with (L + 1 + k) mod 64 = 56 (R80). One of 0..63 always is (R81; log 16). -/
def padZeros (L : Nat) : Nat := ((List.range 64).find? fun k => (L + 1 + k) % 64 == 56).getD 0

/-- The eight bytes of the length field: the bit length L x 8, little-endian (R45, R83). R83 gives it for L < 2^61; above,
`bytesLE` drops the high bits. DESIGN CHOICE, log 12; PAD has no value there (R87). -/
def lengthField (L : Nat) : List Byte := bytesLE (L * 8) 8

/-- PAD's result where its precondition L < 2^61 holds (R80); elsewhere only PAD is to be read (log 12). -/
def padBytes (M : List Byte) : List Byte :=
  M ++ [Config.padByte] ++ List.replicate (padZeros M.length) 0 ++ lengthField M.length

/-- PAD: no value for a message of 2^61 bytes or more (R80, R87). -/
def PAD (M : List Byte) : Option (List Byte) :=
  if M.length < Config.lenMax then some (padBytes M) else none

/-- The number of blocks of the padded message, ceil((L + 9) / 64) (R82). -/
def blockCount (L : Nat) : Nat := (L + 9 + 63) / 64

/-- The first n blocks of a byte sequence. -/
def takeBlocks : Nat → List Byte → List Block
  | 0, _ => []
  | n + 1, P => P.take 64 :: takeBlocks n (P.drop 64)

/-- SPLIT of a sequence of 64 x N bytes: its N blocks in order (R85). R85 gives SPLIT no value on a length that is no
multiple of 64; there the model drops the trailing length mod 64 bytes. DESIGN CHOICE, log 12; no rule makes such a
call (R82). -/
def SPLIT (P : List Byte) : List Block := takeBlocks (P.length / 64) P

/-- Word t of a block (R44, R86); a block has 64 bytes, so no index is out of range (log 12). -/
def packWord (B : Block) (t : Nat) : Word :=
  le32 (B.getD (4 * t) 0) (B.getD (4 * t + 1) 0) (B.getD (4 * t + 2) 0) (B.getD (4 * t + 3) 0)

/-- PACK: the sixteen words of a block (R86). R86 gives it for 64 bytes; of another sequence a missing byte reads as 0 and
a byte beyond is not read. DESIGN CHOICE, log 12; no rule makes such a call. -/
def PACK (B : Block) : List Word := (List.range 16).map (packWord B)

end Sys2Proof.Machine
end

