-- ==== Sys2Proof/Machine/Tables.lean ====
section
/-!
DEFINITION. The fixed configuration of the engine (10_state.md R31): the initial constants, the five boolean functions,
the ten additive constants, the word-order tables and the rotation tables (41_compressor.md R104, R107 to R114).
Literals, as R127 asks. R107 and R109 to R114 are the spec's own supply (93_implementation_defined.md G1 to G4), log 15.
-/

namespace Sys2Proof.Machine

/-- The initial constants (R104). -/
def IV : Running := ⟨0x67452301, 0xEFCDAB89, 0x98BADCFE, 0x10325476, 0xC3D2E1F0⟩

/-- The sub-round of round j, 1..5 (R106); the rounds are 0..79 (log 12). -/
def subRound (j : Nat) : Nat := j / 16 + 1

/-- f1 of R107. -/
def f1 (x y z : Word) : Word := x ^^^ y ^^^ z

/-- f2 of R107. -/
def f2 (x y z : Word) : Word := (x &&& y) ||| (not32 x &&& z)

/-- f3 of R107. -/
def f3 (x y z : Word) : Word := (x ||| not32 y) ^^^ z

/-- f4 of R107. -/
def f4 (x y z : Word) : Word := (x &&& z) ||| (y &&& not32 z)

/-- f5 of R107. -/
def f5 (x y z : Word) : Word := x ^^^ (y ||| not32 z)

/-- The function numbered u, u in 1..5; f5 for any other number (DESIGN CHOICE, log 12; no rule uses one). -/
def boolFn : Nat → Word → Word → Word → Word
  | 1 => f1
  | 2 => f2
  | 3 => f3
  | 4 => f4
  | _ => f5

/-- The left line's function of round j (R108). -/
def fL (j : Nat) : Word → Word → Word → Word := boolFn (subRound j)

/-- The right line's function of round j, in reverse order (R108). -/
def fR (j : Nat) : Word → Word → Word → Word := boolFn (6 - subRound j)

/-- KL_1..KL_5 (R109). -/
def tableKL : List Word := [0x00000000, 0x5A827999, 0x6ED9EBA1, 0x8F1BBCDC, 0xA953FD4E]

/-- KR_1..KR_5 (R110). -/
def tableKR : List Word := [0x50A28BE6, 0x5C4DD124, 0x6D703EF3, 0x7A6D76E9, 0x00000000]

/-- The additive constant of left round j (R109). -/
def KL (j : Nat) : Word := tableKL.getD (subRound j - 1) 0

/-- The additive constant of right round j (R110). -/
def KR (j : Nat) : Word := tableKR.getD (subRound j - 1) 0

/-- Message-word indices of the left rounds, a row a sub-round (R111). -/
def rowsRL : List (List Nat) := [
  [0, 1, 2, 3, 4, 5, 6, 7, 8, 9, 10, 11, 12, 13, 14, 15],
  [7, 4, 13, 1, 10, 6, 15, 3, 12, 0, 9, 5, 2, 14, 11, 8],
  [3, 10, 14, 4, 9, 15, 8, 1, 2, 7, 0, 6, 13, 11, 5, 12],
  [1, 9, 11, 10, 0, 8, 12, 4, 13, 3, 7, 15, 14, 5, 6, 2],
  [4, 0, 5, 9, 7, 12, 2, 10, 14, 1, 3, 8, 11, 6, 15, 13]]

/-- Message-word indices of the right rounds (R112). -/
def rowsRR : List (List Nat) := [
  [5, 14, 7, 0, 9, 2, 11, 4, 13, 6, 15, 8, 1, 10, 3, 12],
  [6, 11, 3, 7, 0, 13, 5, 10, 14, 15, 8, 12, 4, 9, 1, 2],
  [15, 5, 1, 3, 7, 14, 6, 9, 11, 8, 12, 2, 10, 0, 4, 13],
  [8, 6, 4, 1, 3, 11, 15, 0, 5, 12, 2, 13, 9, 7, 10, 14],
  [12, 15, 10, 4, 1, 5, 8, 7, 6, 2, 13, 14, 0, 3, 9, 11]]

/-- Rotation amounts of the left rounds (R113). -/
def rowsSL : List (List Nat) := [
  [11, 14, 15, 12, 5, 8, 7, 9, 11, 13, 14, 15, 6, 7, 9, 8],
  [7, 6, 8, 13, 11, 9, 7, 15, 7, 12, 15, 9, 11, 7, 13, 12],
  [11, 13, 6, 7, 14, 9, 13, 15, 14, 8, 13, 6, 5, 12, 7, 5],
  [11, 12, 14, 15, 14, 15, 9, 8, 9, 14, 5, 6, 8, 6, 5, 12],
  [9, 15, 5, 11, 6, 8, 13, 12, 5, 12, 13, 14, 11, 8, 5, 6]]

/-- Rotation amounts of the right rounds (R114). -/
def rowsSR : List (List Nat) := [
  [8, 9, 9, 11, 13, 15, 15, 5, 7, 7, 8, 11, 14, 14, 12, 6],
  [9, 13, 15, 7, 12, 8, 9, 11, 7, 7, 12, 7, 6, 15, 13, 11],
  [9, 7, 15, 11, 8, 6, 6, 14, 12, 13, 5, 14, 13, 13, 7, 5],
  [15, 5, 8, 11, 14, 14, 6, 14, 6, 9, 12, 9, 12, 5, 15, 8],
  [8, 5, 12, 9, 12, 5, 14, 6, 8, 13, 6, 5, 15, 13, 11, 11]]

/-- Entry j of a table of five rows of sixteen; the rounds are 0..79 (R106), so no index is out of range (log 12). -/
def entry (rows : List (List Nat)) (j : Nat) : Nat := (rows.getD (j / 16) []).getD (j % 16) 0

/-- rL(j) of R111. -/
def rL (j : Nat) : Nat := entry rowsRL j

/-- rR(j) of R112. -/
def rR (j : Nat) : Nat := entry rowsRR j

/-- sL(j) of R113. -/
def sL (j : Nat) : Nat := entry rowsSL j

/-- sR(j) of R114. -/
def sR (j : Nat) : Nat := entry rowsSR j

end Sys2Proof.Machine
end

