-- ==== Sys2Proof/Machine/Compressor.lean ====
section
/-!
DEFINITION. The block compressor as pure functions: ROUND, LINE, COMBINE, COMPRESS, CHAIN (41_compressor.md R116 to
R124), and the two lines as separate agents under any schedule (R125). The register move and the combine step are the
corrected ones (90_conflicts.md C1, C2; log 15). The machine runs the micro-steps of R126 (Machine/Ops.lean).
-/

namespace Sys2Proof.Machine

/-- H[i], i in 0..4 (R12); h4 for any other index (DESIGN CHOICE, log 12; no rule uses one). -/
def hWord (h : Running) (i : Nat) : Word :=
  match i with
  | 0 => h.h0
  | 1 => h.h1
  | 2 => h.h2
  | 3 => h.h3
  | _ => h.h4

/-- Lreg[i] and Rreg[i] of R120, in the order A, B, C, D, E; E for an index above 4 (DESIGN CHOICE, log 12; no rule
uses one). -/
def lineWord (r : LineRegs) (i : Nat) : Word :=
  match i with
  | 0 => r.A
  | 1 => r.B
  | 2 => r.C
  | 3 => r.D
  | _ => r.E

/-- X[t] of the sixteen words of a block (R12, R105); t is a table entry, in 0..15 (R115; log 12). -/
def xWord (X : List Word) (t : Nat) : Word := X.getD t 0

/-- The shape of a round, the same in both lines (R116, R117): all right-hand values are those before the round. -/
def roundWith (f : Word → Word → Word → Word) (k x : Word) (s : Nat) (r : LineRegs) : LineRegs :=
  { A := r.E
    B := rol (r.A + f r.B r.C r.D + x + k) s + r.E
    C := r.B
    D := rol r.C Config.fixedRotate
    E := r.D }

/-- ROUND.L(j), R116. -/
def roundL (X : List Word) (j : Nat) (r : LineRegs) : LineRegs :=
  roundWith (fL j) (KL j) (xWord X (rL j)) (sL j) r

/-- ROUND.R(j), R117. -/
def roundR (X : List Word) (j : Nat) (r : LineRegs) : LineRegs :=
  roundWith (fR j) (KR j) (xWord X (rR j)) (sR j) r

/-- The load of a line's registers from H (R118, R119). -/
def loadLine (h : Running) : LineRegs := ⟨h.h0, h.h1, h.h2, h.h3, h.h4⟩

/-- The left registers after rounds 0..n-1 from r. -/
def roundsL (X : List Word) (r : LineRegs) : Nat → LineRegs
  | 0 => r
  | n + 1 => roundL X n (roundsL X r n)

/-- The right registers after rounds 0..n-1 from r. -/
def roundsR (X : List Word) (r : LineRegs) : Nat → LineRegs
  | 0 => r
  | n + 1 => roundR X n (roundsR X r n)

/-- LINE.L, R118. -/
def lineL (h : Running) (X : List Word) : LineRegs := roundsL X (loadLine h) 80

/-- LINE.R, R119. -/
def lineR (h : Running) (X : List Word) : LineRegs := roundsR X (loadLine h) 80

/-- COMBINE, R120: every sum reads the old H. -/
def combine (h : Running) (l r : LineRegs) : Running :=
  { h0 := h.h1 + l.C + r.D
    h1 := h.h2 + l.D + r.E
    h2 := h.h3 + l.E + r.A
    h3 := h.h4 + l.A + r.B
    h4 := h.h0 + l.B + r.C }

/-- COMBINE as R120 gives it for hardware that updates H in place: one write after another, with a temporary. -/
def combineInPlace (h : Running) (l r : LineRegs) : Running :=
  let t := h.h1 + l.C + r.D
  let h := { h with h1 := h.h2 + l.D + r.E }
  let h := { h with h2 := h.h3 + l.E + r.A }
  let h := { h with h3 := h.h4 + l.A + r.B }
  let h := { h with h4 := h.h0 + l.B + r.C }
  { h with h0 := t }

/-- COMPRESS, R124: a total function of a running state and a block's words. -/
def COMPRESS (h : Running) (X : List Word) : Running := combine h (lineL h X) (lineR h X)

/-- One block folded into a running state (R122). -/
def foldBlock (h : Running) (B : Block) : Running := COMPRESS h (PACK B)

/-- CHAIN over blocks, from IV (R122). -/
def CHAIN (Bs : List Block) : Running := Bs.foldl foldBlock IV

/-- A line of a compression (R125). -/
inductive Side where
  | left
  | right
deriving DecidableEq, Repr

/-- Both lines with a round counter each: what a schedule that is not lockstep needs (R125). -/
structure Lines where
  l : LineRegs
  r : LineRegs
  jL : Nat
  jR : Nat
deriving DecidableEq, Repr

/-- Both lines loaded, no round done. -/
def Lines.start (h : Running) : Lines := ⟨loadLine h, loadLine h, 0, 0⟩

/-- The next round of one line. -/
def Lines.advance (X : List Word) (c : Lines) : Side → Lines
  | .left => { c with l := roundL X c.jL c.l, jL := c.jL + 1 }
  | .right => { c with r := roundR X c.jR c.r, jR := c.jR + 1 }

/-- A whole schedule of single-line rounds, in order (R125, R126). -/
def Lines.run (X : List Word) (c : Lines) (sched : List Side) : Lines := sched.foldl (Lines.advance X) c

end Sys2Proof.Machine
end

