-- ==== Sys2Proof/Machine/Serializer.lean ====
section
/-!
DEFINITION. The serializer SER (42_serializer.md R140, R141) and the engine's one function DIGEST (R144).
-/

namespace Sys2Proof.Machine

/-- SER: h0..h4, each as four little-endian bytes (R46, R140). -/
def SER (h : Running) : List Byte :=
  bytesLE h.h0.toNat 4 ++ bytesLE h.h1.toNat 4 ++ bytesLE h.h2.toNat 4 ++ bytesLE h.h3.toNat 4 ++
    bytesLE h.h4.toNat 4

/-- Digest byte k: byte k mod 4 of H[k div 4] (R141, R154). -/
def digestByte (h : Running) (k : Nat) : Byte := byteOf (hWord h (k / 4)).toNat (k % 4)

/-- DIGEST: no value for a message of 2^61 bytes or more (R144). -/
def DIGEST (M : List Byte) : Option (List Byte) := (PAD M).map fun P => SER (CHAIN (SPLIT P))

end Sys2Proof.Machine
end

