-- ==== Sys2Proof/Machine/State.lean ====
section
/-!
DEFINITION. Everything one engine holds (10_state.md R20 to R27), the two channels to the host (30_encoding.md R60),
the ways a step can stop, and the state after reset (R32, 70_reset_and_hazards.md R211). Plain data.
-/

namespace Sys2Proof.Machine

/-- The phase register's values (R25); the 2-bit code is unobservable and is not modelled (V7). -/
inductive Phase where
  /-- Bytes are being accepted; H is a chaining value. -/
  | active
  /-- The padded message has been consumed; READ is legal. -/
  | finalized
  /-- A command was rejected; only INIT or reset leaves. -/
  | faulted
deriving DecidableEq, Repr

/-- The three rejects, the engine's only exceptions (60_exceptions.md R181). -/
inductive Reject where
  /-- A reserved token (R182). -/
  | errEnc
  /-- A command the phase does not accept (R183). -/
  | errSeq
  /-- ABSORB at LEN = 2^61 - 1 (R184). -/
  | errLen
deriving DecidableEq, Repr

/-- The status field of a response (R62). -/
inductive Status where
  | ok
  | err (e : Reject)
deriving DecidableEq, Repr

/-- What the host does at the engine's channel: the model's only inputs (R190: tokens and reset, nothing else). -/
inductive HostEvent where
  /-- A command token is presented (R60). -/
  | token (t : Token)
  /-- The reset event between two commands (R210). -/
  | reset
  /-- The reset event while the command of this token is in progress: it is abandoned with no response (R210; log 14). -/
  | tokenThenReset (t : Token)
deriving DecidableEq, Repr

/-- The block buffer's contents: address and byte, addresses strictly rising and below 64 (R23; log 1).
An address that is not listed holds no value (R32). -/
abbrev Memory := List Host.Cell

/-- One engine (R20) and its two channels (R60). -/
structure State where
  /-- The running state H[0..4] (R21). -/
  H : Running
  /-- The left working registers L.A..L.E (R22). -/
  L : LineRegs
  /-- The right working registers R.A..R.E (R22). -/
  R : LineRegs
  /-- The block buffer BUF[0..63] (R23). -/
  BUF : Memory
  /-- The byte counter (R24). -/
  LEN : BitVec 61
  /-- The phase register (R25). -/
  PH : Phase
  /-- The round counter, 0..80 (R27). -/
  J : Nat
  /-- The model's own: what the host does next, oldest first (R60, R210; log 5). -/
  cmdChan : List HostEvent
  /-- The model's own: the response tokens so far, oldest first (R60, R18; log 5). -/
  rspChan : List Token
deriving DecidableEq, Repr

/-- How a step of the model can stop. Neither is an exception of the engine (R180); neither is reached from reset. -/
inductive Fault where
  /-- Raised by a read of a BUF byte that holds no value: `memRead1`, `memRead4`, so PACK (R32, R36; V4). Safe. -/
  | bufNoValue (addr : Nat)
  /-- Raised by a BUF access that ends above address 63: `memRead1`, `memRead4`, `memWrite` (R13: it "has no meaning"). Safe. -/
  | bufNoAddress (addr n : Nat)
deriving DecidableEq, Repr

/-- Why a step has no meaning. -/
inductive Refusal where
  /-- Raised by an arm of `exec` whose instruction has no meaning in the model. No arm raises it. Safe. -/
  | notModelled (mnemonic : String)
deriving DecidableEq, Repr

/-- The working registers' value at reset: the spec gives none (R32). DESIGN CHOICE, unsafe, log 2. -/
def resetLine : LineRegs := ⟨0, 0, 0, 0, 0⟩

/-- The state after reset: H = IV, LEN = 0, PH = ACTIVE, BUF without values (R32, R211); the working registers and J
hold a DESIGN CHOICE (logs 2, 3); both channels are empty (log 5). -/
def State.reset : State :=
  { H := IV
    L := resetLine
    R := resetLine
    BUF := []
    LEN := 0
    PH := .active
    J := 0
    cmdChan := []
    rspChan := [] }

end Sys2Proof.Machine
end

