-- ==== Sys2Proof/Machine/Operands.lean ====
section
/-!
DEFINITION. Every operand form and address computation the spec gives (30_encoding.md R62, R63; 43_commands.md R162).
-/

namespace Sys2Proof.Machine

/-- fill = LEN mod 64: ABSORB's and FINAL's buffer address (R24, R162). -/
def fill (s : State) : Nat := s.LEN.toNat % 64

/-- nblk = LEN div 64: the whole message blocks already compressed (R24). -/
def nblk (s : State) : Nat := s.LEN.toNat / 64

/-- PACK's word address 4 t (R162). -/
def wordAddr (t : Nat) : Nat := 4 * t

/-- READ's operand: the digest byte at address k (R154, R162). -/
def readOperand (k : Byte) (s : State) : Byte := digestByte s.H k.toNat

/-- The code of a reject (R181). -/
def Reject.code : Reject → BitVec 2
  | .errEnc => 1
  | .errSeq => 2
  | .errLen => 3

/-- The `st` field of a response (R62). -/
def Status.code : Status → BitVec 2
  | .ok => 0
  | .err e => e.code

/-- Format S: the response token with value st x 256 + data (R62). -/
def respToken (st : Status) (d : Byte) : Token := BitVec.ofNat 10 (st.code.toNat * 256 + d.toNat)

end Sys2Proof.Machine
end

