-- ==== Sys2Proof/Machine/Flags.lean ====
section
/-!
DEFINITION. The engine has no flags, condition codes or carry (10_state.md R29). What stands in their place is the only
control state, PH (R25, R26): the phase check of each command and the length test of ABSORB (43_commands.md R150).
-/

namespace Sys2Proof.Machine

/-- The phase check of R150 step 3; INIT is accepted in every phase (step 2). -/
def phaseAccepts : Instr → Phase → Bool
  | .init, _ => true
  | .absorb _, ph => ph == .active
  | .final, ph => ph == .active
  | .read _, ph => ph == .finalized

/-- The length test of R150 step 4: one more byte would make the message 2^61 bytes long (R184). -/
def lenFull (s : State) : Bool := s.LEN.toNat == Config.lenMax - 1

end Sys2Proof.Machine
end

