-- ==== Sys2Proof/Machine/Ops.lean ====
section
/-!
DEFINITION. The named operations over State: one writer a field, the block buffer's reads and writes (00_scope.md R13),
the response (R14, R62), reject entry (60_exceptions.md R186), the reset event (70_reset_and_hazards.md R210, R211) and
the compression of the buffer in the micro-steps of 41_compressor.md R126.
-/

namespace Sys2Proof.Machine

/-! ### One writer a field -/

def State.setH (v : Running) (s : State) : State := { s with H := v }
def State.setL (v : LineRegs) (s : State) : State := { s with L := v }
def State.setR (v : LineRegs) (s : State) : State := { s with R := v }
def State.setBUF (v : Memory) (s : State) : State := { s with BUF := v }
def State.setLEN (v : BitVec 61) (s : State) : State := { s with LEN := v }
def State.setPH (v : Phase) (s : State) : State := { s with PH := v }
def State.setJ (v : Nat) (s : State) : State := { s with J := v }
def State.setCmdChan (v : List HostEvent) (s : State) : State := { s with cmdChan := v }
def State.setRspChan (v : List Token) (s : State) : State := { s with rspChan := v }

/-! ### The block buffer -/

/-- The byte at an address, if it holds a value. -/
def Memory.read : Memory → Nat → Option Byte
  | [], _ => none
  | (x, b) :: m, a => if x = a then some b else Memory.read m a

/-- Write one byte, keeping the addresses strictly rising. -/
def Memory.write : Memory → Nat → Byte → Memory
  | [], a, b => [(a, b)]
  | (x, c) :: m, a, b =>
    if a < x then (a, b) :: (x, c) :: m
    else if a = x then (a, b) :: m
    else (x, c) :: Memory.write m a b

/-- Write consecutive bytes upward from an address. -/
def Memory.writeList : Memory → Nat → List Byte → Memory
  | m, _, [] => m
  | m, a, b :: bs => Memory.writeList (Memory.write m a b) (a + 1) bs

/-- The canonical form: addresses strictly rising, all in 0..63 (R23, R42). An unlisted address has no value, so no
entry can equal what one reads as. -/
abbrev Memory.wf (m : Memory) : Prop := (m.map Prod.fst).Pairwise (· < ·) ∧ ∀ c ∈ m, c.1 < 64

/-- MemRead(a, 1), R13; a byte without a value faults (R32, R36; log 1), an address above 63 has no meaning (log 20). -/
def memRead1 (a : Nat) (s : State) : Except Fault Byte :=
  if a + 1 ≤ 64 then
    match s.BUF.read a with
    | some b => .ok b
    | none => .error (.bufNoValue a)
  else .error (.bufNoAddress a 1)

/-- MemRead(a, 4), R13: a little-endian word. -/
def memRead4 (a : Nat) (s : State) : Except Fault Word :=
  if a + 4 ≤ 64 then do
    let b0 ← memRead1 a s
    let b1 ← memRead1 (a + 1) s
    let b2 ← memRead1 (a + 2) s
    let b3 ← memRead1 (a + 3) s
    .ok (le32 b0 b1 b2 b3)
  else .error (.bufNoAddress a 4)

/-- MemWrite(a, n, v), R13: the n little-endian bytes of v; an address above 63 has no meaning (log 20). R13 gives it for
n in 1, 4, 8; for any other n inside the buffer the model writes n bytes all the same. DESIGN CHOICE, log 20; no command
makes such a write. -/
def memWrite (a n v : Nat) (s : State) : Except Fault State :=
  if a + n ≤ 64 then .ok (s.setBUF (s.BUF.writeList a (bytesLE v n))) else .error (.bufNoAddress a n)

/-- `for a in a .. a+n-1: MemWrite(a, 1, 0x00)` (R89, R153). -/
def memZero : Nat → Nat → State → Except Fault State
  | _, 0, s => .ok s
  | a, n + 1, s => (memWrite a 1 0 s).bind (memZero (a + 1) n)

/-- The words at addresses 4t, 4(t+1), ..., n of them. -/
def readWords : Nat → Nat → State → Except Fault (List Word)
  | _, 0, _ => .ok []
  | t, n + 1, s => do
    let x ← memRead4 (wordAddr t) s
    let xs ← readWords (t + 1) n s
    .ok (x :: xs)

/-- PACK of the buffer: X[t] = MemRead(4 t, 4), t in 0..15 (R86). -/
def packBuf (s : State) : Except Fault (List Word) := readWords 0 16 s

/-! ### Response and reject entry -/

/-- respond(st, d), R14: the command's one response token. -/
def State.respond (st : Status) (d : Byte) (s : State) : State := s.setRspChan (s.rspChan ++ [respToken st d])

/-- Reject entry, the engine's only trap mechanism (R186): nothing but PH and the response. H, BUF, LEN, the working
registers and J are dead from here on; the model keeps them (log 9). -/
def State.raise (e : Reject) (s : State) : State := (s.setPH .faulted).respond (.err e) 0

/-- What INIT and reset both establish (R32, R151, R212); INIT is also the only return from FAULTED (R188). -/
def State.begin (s : State) : State := ((s.setH IV).setLEN 0).setPH .active

/-- The reset event (R210, R211): the state after reset whatever it was before, with no response. The channels are the
host's and go on (log 4). -/
def State.hwReset (s : State) : State :=
  { State.reset with cmdChan := s.cmdChan, rspChan := s.rspChan }

/-- The checks of R150: a command that fails one is rejected and has no other effect (R187). -/
def checkPhase (i : Instr) (s : State) (body : Host.Outcome State Fault Refusal) :
    Host.Outcome State Fault Refusal :=
  if phaseAccepts i s.PH then body else .next (s.raise .errSeq)

/-- R150 step 4, for ABSORB only. -/
def checkLen (s : State) (body : Host.Outcome State Fault Refusal) : Host.Outcome State Fault Refusal :=
  if lenFull s then .next (s.raise .errLen) else body

/-- R150 step 1 for a term that no token decodes to: READ k with k at least 20 (R154; log 10). -/
def checkEnc (i : Instr) (s : State) (body : Host.Outcome State Fault Refusal) :
    Host.Outcome State Fault Refusal :=
  if i.wellFormed then body else .next (s.raise .errEnc)

/-- The end of a command whose effect is done: respond OK with the filler byte (R62, R150 step 5). -/
def finish : Except Fault State → Host.Outcome State Fault Refusal
  | .ok s => .next (s.respond .ok 0)
  | .error f => .fault f

/-! ### The compression of one block, in micro-steps (R126) -/

/-- (start): both register sets loaded from H, J <- 0. -/
def startLines (s : State) : State := ((s.setL (loadLine s.H)).setR (loadLine s.H)).setJ 0

/-- (round, while J < 80): ROUND.L(J) and ROUND.R(J), then J <- J + 1. Lockstep (R125; log 17). -/
def roundStep (X : List Word) (s : State) : State :=
  ((s.setL (roundL X s.J s.L)).setR (roundR X s.J s.R)).setJ (s.J + 1)

/-- (combine, when J = 80): COMBINE. -/
def combineStep (s : State) : State := s.setH (combine s.H s.L s.R)

/-- One micro-step. R126 has J in 0..80; with a J above 80 the model combines (DESIGN CHOICE, log 12; no run reaches one). -/
def microStep (X : List Word) (s : State) : State :=
  if s.J < 80 then roundStep X s else combineStep s

/-- n micro-steps. -/
def microRun (X : List Word) : Nat → State → State
  | 0, s => s
  | n + 1, s => microRun X n (microStep X s)

/-- A whole compression: start, 80 rounds, combine (R124, R126). -/
def compressWith (X : List Word) (s : State) : State := microRun X 81 (startLines s)

/-- H <- COMPRESS(H, PACK(BUF)) (R124). -/
def compressBuf (s : State) : Except Fault State := (packBuf s).map fun X => compressWith X s

end Sys2Proof.Machine
end

