-- ==== Sys2Proof/Machine/Commands.lean ====
section
/-!
DEFINITION. The four host commands (43_commands.md R150 to R154), over the block-serial framer of 40_framer.md R88, R89.
-/

namespace Sys2Proof.Machine

/-- INIT, R151: accepted in every phase; BUF, the working registers and J are not written. -/
def execInit (s : State) : Host.Outcome State Fault Refusal := .next (s.begin.respond .ok 0)

/-- The effect of an accepted ABSORB b: R88 steps 1 to 3. -/
def absorbBody (b : Byte) (s : State) : Except Fault State :=
  (memWrite (fill s) 1 b.toNat s).bind fun s1 =>
    let s2 := s1.setLEN (s1.LEN + 1)
    if fill s2 = 0 then compressBuf s2 else .ok s2

/-- ABSORB b, R152. -/
def execAbsorb (b : Byte) (s : State) : Host.Outcome State Fault Refusal :=
  checkPhase (.absorb b) s (checkLen s (finish (absorbBody b s)))

/-- R89 steps 1 and 2: 0x80 at the fill p, zeros above it. -/
def padFill (s : State) : Except Fault State :=
  (memWrite (fill s) 1 Config.padByte.toNat s).bind (memZero (fill s + 1) (63 - fill s))

/-- R89 step 3: with p of 56 or more the block has no room for the length, so it is compressed and cleared. -/
def padOverflow (s : State) : Except Fault State :=
  if 56 ≤ fill s then (compressBuf s).bind (memZero 0 56) else .ok s

/-- R89 steps 4 and 5: the length field, the last compression. -/
def padLength (s : State) : Except Fault State :=
  (memWrite 56 8 (s.LEN.toNat * 8) s).bind compressBuf

/-- The effect of an accepted FINAL: R89, then PH <- FINALIZED. -/
def finalBody (s : State) : Except Fault State :=
  (((padFill s).bind padOverflow).bind padLength).map (State.setPH .finalized)

/-- FINAL, R153. -/
def execFinal (s : State) : Host.Outcome State Fault Refusal := checkPhase .final s (finish (finalBody s))

/-- READ k, R154: it writes no state but the response. -/
def execRead (k : Byte) (s : State) : Host.Outcome State Fault Refusal :=
  checkEnc (.read k) s (checkPhase (.read k) s (.next (s.respond .ok (readOperand k s))))

end Sys2Proof.Machine
end

