-- ==== Sys2Proof/Machine/Channel.lean ====
section
/-!
DEFINITION. The command channel (30_encoding.md R60): what the engine does with one event of the host, and how a token
is put where the next step takes it. The engine fetches no instructions (10_state.md R28): a token is what it executes.
-/

namespace Sys2Proof.Machine

/-- R150 steps 1, 2 to 5: a reserved token raises ErrEnc in every phase, any other runs its command. -/
def execToken (t : Token) (s : State) : Host.Outcome State Fault Refusal :=
  match decode t with
  | .instr i => exec i s
  | .reserved _ => .next (s.raise .errEnc)

/-- One event, already taken off the channel. -/
def serve (e : HostEvent) (s : State) : Host.Outcome State Fault Refusal :=
  match e with
  | .token t => execToken t s
  | .reset => .next s.hwReset
  | .tokenThenReset _ => .next s.hwReset

/-- Put a token at the head of the command channel; a table word of more than 10 bits is no token and puts nothing. -/
def presentWord (s : State) (nbits w : Nat) : State :=
  if tableValue nbits w < 1024 then
    s.setCmdChan (.token (BitVec.ofNat 10 (tableValue nbits w)) :: s.cmdChan)
  else s

end Sys2Proof.Machine
end

