-- ==== Sys2Proof/Machine/Step.lean ====
section
/-!
DEFINITION. One step: the oldest event of the command channel, completely (20_memory.md R53); with no event the engine
holds its state (60_exceptions.md R200; log 6).
-/

namespace Sys2Proof.Machine

/-- One step of the engine. -/
def step (s : State) : Host.Outcome State Fault Refusal :=
  match s.cmdChan with
  | [] => .next s
  | e :: rest => serve e (s.setCmdChan rest)

/-- The state with a table word's token as the next thing the engine takes (log 13). -/
def State.withFetchWord (s : State) (nbits w : Nat) : State := presentWord s nbits w

end Sys2Proof.Machine
end

