-- ==== Sys2Proof/Machine/Engines.lean ====
section
/-!
DEFINITION. Several engines (60_exceptions.md R198): the product of copies of the model of one. Each has all its own
state and channels; they share only the constant tables.
-/

namespace Sys2Proof.Machine

/-- Any number of engine instances. They have no identifiers (R198): a position in the list is the model's name only. -/
abbrev System := List State

/-- One step of the engine at a position; at a position without an engine nothing happens. -/
def stepEngine (n : Nat) (es : System) : Host.Outcome System Fault Refusal :=
  match es[n]? with
  | none => .next es
  | some s =>
    match step s with
    | .next t => .next (es.set n t)
    | .fault f => .fault f
    | .refused r => .refused r

end Sys2Proof.Machine
end

