-- ==== Sys2Proof/Machine/Script.lean ====
section
/-!
DEFINITION. Command scripts (30_encoding.md R68), the pseudo-instructions and their expansions (R69), and how a digest
is written down (42_serializer.md R145). No part of the engine: only how the spec writes programs. Text is a list of
characters, so that the kernel can read it.
-/

namespace Sys2Proof.Machine

/-! ### Expansions (R69) -/

/-- DIGEST: READ 0, ..., READ 19. -/
def digestReads : List Instr := (List.range 20).map fun k => .read (BitVec.ofNat 8 k)

/-- ABSORBS of a byte sequence. -/
def absorbAll (M : List Byte) : List Instr := M.map .absorb

/-- HASH of a byte sequence: INIT, the bytes, FINAL, DIGEST. -/
def hashCommands (M : List Byte) : List Instr := .init :: absorbAll M ++ .final :: digestReads

/-- The host events of a command sequence. -/
def toEvents (is : List Instr) : List HostEvent := is.map fun i => .token (encode i)

/-- A line of a script: a command or a pseudo-instruction. -/
inductive ScriptLine where
  | cmd (i : Instr)
  | absorbs (text : List Char)
  | absorbn (b : Byte) (n : Nat)
  | digest
  | hash (text : List Char)
deriving DecidableEq, Repr

/-- A character's ASCII code. R69 gives one for ASCII text only, which is all that `parseQuoted` lets in; of another
character the model takes its code mod 256. DESIGN CHOICE, log 21. -/
def asciiByte (c : Char) : Byte := BitVec.ofNat 8 c.toNat

/-- The commands a line stands for. -/
def ScriptLine.expand : ScriptLine → List Instr
  | .cmd i => [i]
  | .absorbs text => absorbAll (text.map asciiByte)
  | .absorbn b n => List.replicate n (.absorb b)
  | .digest => digestReads
  | .hash text => hashCommands (text.map asciiByte)

/-! ### The text of a line (R68); spacing is the model's choice (log 21) -/

/-- Spaces and tabs may stand between the parts of a line. -/
def skipSpaces (cs : List Char) : List Char := cs.dropWhile fun c => c == ' ' || c == '\t'

/-- The value of a decimal digit. -/
def decDigit (c : Char) : Option Nat :=
  if '0'.toNat ≤ c.toNat ∧ c.toNat ≤ '9'.toNat then some (c.toNat - '0'.toNat) else none

/-- The value of a hexadecimal digit of either case. -/
def hexDigit (c : Char) : Option Nat :=
  if '0'.toNat ≤ c.toNat ∧ c.toNat ≤ '9'.toNat then some (c.toNat - '0'.toNat)
  else if 'a'.toNat ≤ c.toNat ∧ c.toNat ≤ 'f'.toNat then some (c.toNat - 'a'.toNat + 10)
  else if 'A'.toNat ≤ c.toNat ∧ c.toNat ≤ 'F'.toNat then some (c.toNat - 'A'.toNat + 10)
  else none

/-- The decimal number a text goes on with, from a value already read. -/
def decTail : Nat → List Char → Nat × List Char
  | v, [] => (v, [])
  | v, c :: cs =>
    match decDigit c with
    | some d => decTail (10 * v + d) cs
    | none => (v, c :: cs)

/-- A decimal number of at least one digit. -/
def parseDec : List Char → Option (Nat × List Char)
  | [] => none
  | c :: cs => (decDigit c).map fun d => decTail d cs

/-- A byte: 0x and two hexadecimal digits, or a decimal number 0..255. -/
def parseByte : List Char → Option (Byte × List Char)
  | '0' :: 'x' :: a :: b :: cs =>
    match hexDigit a, hexDigit b with
    | some x, some y => some (BitVec.ofNat 8 (16 * x + y), cs)
    | _, _ => none
  | cs =>
    match parseDec cs with
    | some (n, rest) => if n ≤ 255 then some (BitVec.ofNat 8 n, rest) else none
    | none => none

/-- The rest of a quoted text of ASCII characters, up to the closing quote. -/
def quoteTail : List Char → Option (List Char × List Char)
  | [] => none
  | c :: cs =>
    if c = '"' then some ([], cs)
    else if c.toNat < 128 then (quoteTail cs).map fun p => (c :: p.1, p.2)
    else none

/-- A quoted text. -/
def parseQuoted : List Char → Option (List Char × List Char)
  | '"' :: cs => quoteTail cs
  | _ => none

/-- Upper-case letters of a mnemonic, and what follows. -/
def mnemonicOf (cs : List Char) : List Char × List Char :=
  cs.span fun c => decide ('A'.toNat ≤ c.toNat ∧ c.toNat ≤ 'Z'.toNat)

/-- The command or pseudo-instruction at the head of a line, and the rest of the line. R69 does not give the written form
of n in `ABSORBN <byte>, <n>`: the model reads a decimal number of any size, 0 among them, and no 0x form. DESIGN CHOICE,
log 21. -/
def parseHead (cs : List Char) : Option (ScriptLine × List Char) :=
  let (word, after) := mnemonicOf cs
  let rest := skipSpaces after
  if word = ['I', 'N', 'I', 'T'] then some (.cmd .init, rest)
  else if word = ['F', 'I', 'N', 'A', 'L'] then some (.cmd .final, rest)
  else if word = ['D', 'I', 'G', 'E', 'S', 'T'] then some (.digest, rest)
  else if word = ['A', 'B', 'S', 'O', 'R', 'B'] then
    (parseByte rest).map fun p => (.cmd (.absorb p.1), p.2)
  else if word = ['R', 'E', 'A', 'D'] then
    match parseDec rest with
    | some (k, more) => if k ≤ 19 then some (.cmd (.read (BitVec.ofNat 8 k)), more) else none
    | none => none
  else if word = ['A', 'B', 'S', 'O', 'R', 'B', 'S'] then
    (parseQuoted rest).map fun p => (.absorbs p.1, p.2)
  else if word = ['A', 'B', 'S', 'O', 'R', 'B', 'N'] then
    match parseByte rest with
    | some (b, more) =>
      match skipSpaces more with
      | ',' :: more => (parseDec (skipSpaces more)).map fun p => (.absorbn b p.1, p.2)
      | _ => none
    | none => none
  else if word = ['H', 'A', 'S', 'H'] then
    (parseQuoted rest).map fun p => (.hash p.1, p.2)
  else none

/-- The end of a line: nothing, or a comment. -/
def lineEnds (cs : List Char) : Bool :=
  match skipSpaces cs with
  | [] => true
  | c :: _ => c == ';'

/-- The expected response that may follow a command, `-> 0x` and three hexadecimal digits, and then the line's end. -/
def parseExpected (cs : List Char) : Option (Option Token) :=
  match skipSpaces cs with
  | '-' :: '>' :: more =>
    match skipSpaces more with
    | '0' :: 'x' :: a :: b :: c :: rest =>
      match hexDigit a, hexDigit b, hexDigit c with
      | some x, some y, some z =>
        if 256 * x + 16 * y + z < 1024 ∧ lineEnds rest then
          some (some (BitVec.ofNat 10 (256 * x + 16 * y + z)))
        else none
      | _, _, _ => none
    | _ => none
  | more => if lineEnds more then some none else none

/-- One line: a command with its recorded response if there is one; nothing for a blank line or a comment. R68 gives
`-> <response>` after a command only; the model lets one stand after a pseudo-instruction too, and gives it no meaning.
DESIGN CHOICE, log 21. -/
def parseLine (cs : List Char) : Option (Option (ScriptLine × Option Token)) :=
  if lineEnds cs then some none
  else
    match parseHead (skipSpaces cs) with
    | some (l, rest) => (parseExpected rest).map fun e => some (l, e)
    | none => none

/-- The lines of a text. -/
def linesOf : List Char → List (List Char)
  | [] => [[]]
  | c :: cs =>
    match linesOf cs with
    | [] => [[c]]
    | l :: ls => if c = '\n' then [] :: l :: ls else (c :: l) :: ls

/-- A whole script, one command a line. -/
def parseScript (cs : List Char) : Option (List ScriptLine) :=
  ((linesOf cs).mapM parseLine).map fun ls => (ls.filterMap id).map Prod.fst

/-- The tokens a script sends. -/
def scriptTokens (ls : List ScriptLine) : List Token := (ls.flatMap ScriptLine.expand).map encode

/-! ### Digests (R145) -/

/-- One lower-case hexadecimal digit. -/
def hexChar (n : Nat) : Char := if n < 10 then Char.ofNat (48 + n) else Char.ofNat (87 + n)

/-- Two digits a byte, most significant first, byte 0 first. -/
def renderHex (bs : List Byte) : List Char :=
  bs.flatMap fun b => [hexChar (b.toNat / 16), hexChar (b.toNat % 16)]

end Sys2Proof.Machine
end

