-- ==== Sys2Proof/Machine/Work.lean ====
section
/-!
DEFINITION. The work of a command (70_reset_and_hazards.md R217): which blocks it hands to COMPRESS, in order
(40_framer.md R90). A count of work, not of time; no field of State holds it. It repeats the buffer operations of the
meanings, not their compressions.
-/

namespace Sys2Proof.Machine

/-- The buffer as a block. A byte without a value shows as 0 here; where one is read, the command itself faults. -/
def blockOf (m : Memory) : Block := (List.range 64).map fun a => (m.read a).getD 0

/-- The block an accepted ABSORB b completes, if it completes one (R88 step 3). -/
def absorbBlocks (b : Byte) (s : State) : List Block :=
  match memWrite (fill s) 1 b.toNat s with
  | .ok s1 => if fill (s1.setLEN (s1.LEN + 1)) = 0 then [blockOf s1.BUF] else []
  | .error _ => []

/-- The last block, after R89 step 4. -/
def lastBlocks (s : State) : List Block :=
  match memWrite 56 8 (s.LEN.toNat * 8) s with
  | .ok s1 => [blockOf s1.BUF]
  | .error _ => []

/-- The one or two blocks of an accepted FINAL (R89 steps 3a and 5). -/
def finalBlocks (s : State) : List Block :=
  match padFill s with
  | .ok s1 =>
    if 56 ≤ fill s1 then
      match memZero 0 56 s1 with
      | .ok s2 => blockOf s1.BUF :: lastBlocks s2
      | .error _ => []
    else lastBlocks s1
  | .error _ => []

/-- The blocks a command hands to COMPRESS; a rejected command hands none (R187). -/
def handed : Instr → State → List Block
  | .init, _ => []
  | .absorb b, s => if phaseAccepts (.absorb b) s.PH && !lenFull s then absorbBlocks b s else []
  | .final, s => if phaseAccepts .final s.PH then finalBlocks s else []
  | .read _, _ => []

/-- The blocks a sequence of commands hands over, one command after another. -/
def handedBy : List Instr → State → List Block
  | [], _ => []
  | i :: is, s =>
    match exec i s with
    | .next t => handed i s ++ handedBy is t
    | .fault _ => []
    | .refused _ => []

end Sys2Proof.Machine
end

