-- ==== Sys2Proof/Safety.lean ====
section
/-!
DEFINITION. What the claims are stated in: the invariant of every run, and what the engine holds of the message it has
absorbed (10_state.md R35, R36).
-/

namespace Sys2Proof.Machine

/-- The invariant: the buffer is canonical (R23), J is in 0..80 (R27), and in phase ACTIVE every byte below the fill
holds a value, so that no compression reads one that holds none (R35, R36). `wf` and `rounds` are the ranges of two
fields of State and hold in every phase; they say nothing of a value, so nothing that R186 forbids in FAULTED. -/
structure Invariant (s : State) : Prop where
  wf : s.BUF.wf
  rounds : s.J ≤ 80
  filled : s.PH = .active → ∀ a < fill s, (s.BUF.read a).isSome

/-- In phase ACTIVE with message M absorbed since the last reset or INIT (R35): LEN counts M, H is the chaining value of
its whole blocks, and the buffer holds the bytes after them. -/
structure Absorbed (M : List Byte) (s : State) : Prop where
  active : s.PH = .active
  len : s.LEN.toNat = M.length
  chain : s.H = CHAIN (SPLIT (M.take (64 * (M.length / 64))))
  tail : ∀ a < M.length % 64, s.BUF.read a = M[64 * (M.length / 64) + a]?

/-- Two engines no host can tell apart (10_state.md R30; 93_implementation_defined.md V3 to V6): the same channels and
phase, and of the rest only what a later command can still show. In ACTIVE that is H, LEN and the bytes below the fill,
in FINALIZED it is H, in FAULTED nothing. -/
structure SameView (s t : State) : Prop where
  cmd : s.cmdChan = t.cmdChan
  rsp : s.rspChan = t.rspChan
  phase : s.PH = t.PH
  active : s.PH = .active →
    s.H = t.H ∧ s.LEN = t.LEN ∧ ∀ a < fill s, ∃ b, s.BUF.read a = some b ∧ t.BUF.read a = some b
  finalized : s.PH = .finalized → s.H = t.H

/-- How reset and INIT both enter the state Initialized (10_state.md R33; 70_reset_and_hazards.md R212): no byte absorbed
yet. The buffer, the working registers and J may hold anything. -/
structure Initialized (s : State) : Prop where
  H : s.H = IV
  LEN : s.LEN = 0
  PH : s.PH = .active

/-- The acceptance table of 43_commands.md R150, cell by cell: the response's status and the next phase. `full` is
LEN = 2^61 - 1. -/
def acceptance (d : Decoded) (ph : Phase) (full : Bool) : Status × Phase :=
  match d, ph with
  | .instr .init, .active => (.ok, .active)
  | .instr .init, .finalized => (.ok, .active)
  | .instr .init, .faulted => (.ok, .active)
  | .instr (.absorb _), .active => if full then (.err .errLen, .faulted) else (.ok, .active)
  | .instr (.absorb _), .finalized => (.err .errSeq, .faulted)
  | .instr (.absorb _), .faulted => (.err .errSeq, .faulted)
  | .instr .final, .active => (.ok, .finalized)
  | .instr .final, .finalized => (.err .errSeq, .faulted)
  | .instr .final, .faulted => (.err .errSeq, .faulted)
  | .instr (.read _), .active => (.err .errSeq, .faulted)
  | .instr (.read _), .finalized => (.ok, .finalized)
  | .instr (.read _), .faulted => (.err .errSeq, .faulted)
  | .reserved _, .active => (.err .errEnc, .faulted)
  | .reserved _, .finalized => (.err .errEnc, .faulted)
  | .reserved _, .faulted => (.err .errEnc, .faulted)

/-- The events that are answered by a response (30_encoding.md R60, 70_reset_and_hazards.md R210). -/
def HostEvent.answered : HostEvent → Bool
  | .token _ => true
  | .reset => false
  | .tokenThenReset _ => false

/-- A run of the machine through all events its command channel holds. -/
def runChannel (s : State) : Host.Outcome State Fault Refusal := Host.Core.run core s.cmdChan.length s

end Sys2Proof.Machine
end

