-- ==== Sys2Proof/Certificates/Slice0/Obligations.lean ====
section
/-!
DEFINITION. The statements about the machine, for the provers. Each docstring names the rule of spec/ it formalises.
A statement about a next state of a rejected command mentions no value of H, BUF, LEN, the working registers or J
(60_exceptions.md R186; V3). A clause about a dead value (10_state.md R30; V5, V6) says that it is the model's choice.
-/

open Sys2Proof Sys2Proof.Machine

/-! ### Encoding -/

/-- 95_test_vectors.md section 6.5, and the counts of 30_encoding.md R64 and R65: 278 legal tokens, 746 reserved ones. -/
def Obligations.DecodeOfWrittenOutTokens : Prop :=
  decode 0b0000000000 = .instr .init ∧ decode 0b0101100001 = .instr (.absorb 0x61) ∧
  decode 0b0111111111 = .instr (.absorb 0xFF) ∧ decode 0b1000000000 = .instr .final ∧
  decode 0b1100000000 = .instr (.read 0) ∧ decode 0b1100010011 = .instr (.read 19) ∧
  decode 0b0000000001 = .reserved .initArg ∧ decode 0b1000000001 = .reserved .finalArg ∧
  decode 0b1100010100 = .reserved .readArg ∧
  ((List.range 1024).filter fun n => (decodeTableWord 16 n).isSome).length = 278 ∧
  ((List.range 1024).filter fun n => (decodeTableWord 16 n).isNone).length = 746

/-- 30_encoding.md R71: the decoder on every one of the 1024 tokens, by value, the encoder on every command, and that
each undoes the other. -/
def Obligations.DecoderIsTotalAndEncoderItsInverse : Prop :=
  (∀ t : Token,
    (t.toNat = 0 → decode t = .instr .init) ∧
    (0x001 ≤ t.toNat → t.toNat ≤ 0x0FF → ∃ why, decode t = .reserved why) ∧
    (0x100 ≤ t.toNat → t.toNat ≤ 0x1FF → decode t = .instr (.absorb (BitVec.ofNat 8 (t.toNat - 0x100)))) ∧
    (t.toNat = 0x200 → decode t = .instr .final) ∧
    (0x201 ≤ t.toNat → t.toNat ≤ 0x2FF → ∃ why, decode t = .reserved why) ∧
    (0x300 ≤ t.toNat → t.toNat ≤ 0x313 → decode t = .instr (.read (BitVec.ofNat 8 (t.toNat - 0x300)))) ∧
    (0x314 ≤ t.toNat → ∃ why, decode t = .reserved why)) ∧
  (encode .init).toNat = 0x000 ∧ (∀ b : Byte, (encode (.absorb b)).toNat = 0x100 + b.toNat) ∧
  (encode .final).toNat = 0x200 ∧
  (∀ k : Byte, k.toNat ≤ 19 → (encode (.read k)).toNat = 0x300 + k.toNat) ∧
  (∀ i : Instr, i.wellFormed = true → decode (encode i) = .instr i) ∧
  (∀ (t : Token) (i : Instr), decode t = .instr i → i.wellFormed = true ∧ encode i = t)

/-- 30_encoding.md R62 and the codes of 60_exceptions.md R181: the value of a response token is st x 256 + data, and both
fields can be read back. -/
def Obligations.ResponseTokenCarriesStatusAndData : Prop :=
  ∀ (st : Status) (d : Byte),
    (respToken st d).toNat =
      (match st with
        | .ok => 0
        | .err .errEnc => 1
        | .err .errSeq => 2
        | .err .errLen => 3) * 256 + d.toNat ∧
    opField (respToken st d) = st.code ∧ argField (respToken st d) = d

/-! ### A step -/

/-- 20_memory.md R53, 30_encoding.md R60: a step takes the oldest token off the channel and runs the command it decodes
to; and a table word presented to the machine is what the very next step runs. -/
def Obligations.StepRunsTheDecodedCommand : Prop :=
  (∀ (s : State) (tok : Token) (rest : List HostEvent) (i : Instr), s.cmdChan = .token tok :: rest →
    decode tok = .instr i → step s = exec i { s with cmdChan := rest }) ∧
  (∀ (s : State) (nbits w : Nat) (i : Instr), decodeTableWord nbits w = some i →
    step (s.withFetchWord nbits w) = exec i s)

/-- 60_exceptions.md R200: between commands the engine holds its state. That a step without an event is such a pause is
the model's reading (log 6). -/
def Obligations.StepWithoutAnEventHoldsTheState : Prop :=
  ∀ s : State, s.cmdChan = [] → step s = .next s

/-- 43_commands.md R150's table, 60_exceptions.md R182, R183, R185: every token in every phase is answered by exactly one
response, with the status and the next phase of the table, and with data 0x00 unless it is an accepted READ (R62).
The premise is the invariant that every run keeps (`StepKeepsTheInvariant`). -/
def Obligations.EveryTokenIsAnsweredByTheAcceptanceTable : Prop :=
  ∀ (s : State) (tok : Token) (rest : List HostEvent), Invariant s → s.cmdChan = .token tok :: rest →
    ∃ (t : State) (d : Byte), step s = .next t ∧ t.cmdChan = rest ∧
      t.rspChan = s.rspChan ++
        [respToken (acceptance (decode tok) s.PH (s.LEN.toNat == 2 ^ 61 - 1)).1 d] ∧
      t.PH = (acceptance (decode tok) s.PH (s.LEN.toNat == 2 ^ 61 - 1)).2 ∧
      ((∃ k, decode tok = .instr (.read k) ∧ s.PH = .finalized) ∨ d = 0)

/-- 43_commands.md R160: the phase changes by reset, INIT, an accepted FINAL or a reject, and in no other way; accepted
ABSORB and READ leave it. -/
def Obligations.PhaseChangesOnlyAsListed : Prop :=
  (∀ s t : State, step s = .next t → t.PH ≠ s.PH →
    (∃ e rest, s.cmdChan = e :: rest ∧ e.answered = false ∧ t.PH = .active) ∨
    (∃ rest, s.cmdChan = .token (encode .init) :: rest ∧ t.PH = .active) ∨
    (∃ rest, s.cmdChan = .token (encode .final) :: rest ∧ s.PH = .active ∧ t.PH = .finalized ∧
      t.rspChan = s.rspChan ++ [0x000]) ∨
    (∃ tok rest e, s.cmdChan = .token tok :: rest ∧ t.PH = .faulted ∧
      t.rspChan = s.rspChan ++ [respToken (.err e) 0])) ∧
  (∀ s t : State, exec .init s = .next t → t.PH = .active) ∧
  (∀ s : State, s.hwReset.PH = .active) ∧
  (∀ s t : State, exec .final s = .next t → t.rspChan = s.rspChan ++ [0x000] → t.PH = .finalized) ∧
  (∀ (b : Byte) (s t : State), exec (.absorb b) s = .next t → t.rspChan = s.rspChan ++ [0x000] → t.PH = s.PH) ∧
  (∀ (k d : Byte) (s t : State), exec (.read k) s = .next t → t.rspChan = s.rspChan ++ [respToken .ok d] →
    t.PH = s.PH) ∧
  (∀ (i : Instr) (s t : State) (e : Reject), exec i s = .next t →
    t.rspChan = s.rspChan ++ [respToken (.err e) 0] → t.PH = .faulted)

/-- 60_exceptions.md R189: any number of tokens other than INIT in FAULTED are each rejected, ErrEnc if reserved and
ErrSeq otherwise, and the phase stays FAULTED. -/
def Obligations.FaultedRejectsEverythingButInit : Prop :=
  ∀ (toks : List Token) (s : State) (rest : List HostEvent), s.PH = .faulted → (∀ tok ∈ toks, tok ≠ 0x000) →
    s.cmdChan = toks.map .token ++ rest →
    ∃ t : State, Host.Core.run core toks.length s = .next t ∧ t.PH = .faulted ∧ t.cmdChan = rest ∧
      t.rspChan = s.rspChan ++ toks.map fun tok => respToken
        (match decode tok with
          | .reserved _ => .err .errEnc
          | .instr _ => .err .errSeq) 0

/-! ### Reset -/

/-- 10_state.md R32, 70_reset_and_hazards.md R211: what reset leaves, as far as the spec gives a value; every byte of the
buffer holds none. -/
def Obligations.ResetLeavesTheSpecifiedValues : Prop :=
  State.reset.H = ⟨0x67452301, 0xEFCDAB89, 0x98BADCFE, 0x10325476, 0xC3D2E1F0⟩ ∧ State.reset.LEN = 0 ∧
  State.reset.PH = .active ∧ ∀ a, State.reset.BUF.read a = none

/-- THE MODEL'S OWN CHOICE (logs 2, 3, 5): the spec gives the working registers and J no value at reset (10_state.md R32)
and does not say how the channels are carried (30_encoding.md R60); the model starts the registers and J at 0, both
channels empty. -/
def Obligations.ResetRegistersAndChannelsAreAModelChoice : Prop :=
  State.reset.L = ⟨0, 0, 0, 0, 0⟩ ∧ State.reset.R = ⟨0, 0, 0, 0, 0⟩ ∧ State.reset.J = 0 ∧
  State.reset.cmdChan = [] ∧ State.reset.rspChan = []

/-- 70_reset_and_hazards.md R210, R211: the reset event, also in the middle of a command, gives the state after reset
whatever it was before, and no response. -/
def Obligations.ResetEventAnswersNothingAndRestores : Prop :=
  ∀ (s : State) (e : HostEvent) (rest : List HostEvent), s.cmdChan = e :: rest →
    (e = .reset ∨ ∃ tok, e = .tokenThenReset tok) →
    ∃ t, step s = .next t ∧ t.H = ⟨0x67452301, 0xEFCDAB89, 0x98BADCFE, 0x10325476, 0xC3D2E1F0⟩ ∧ t.LEN = 0 ∧
      t.PH = .active ∧ (∀ a, t.BUF.read a = none) ∧ t.rspChan = s.rspChan ∧ t.cmdChan = rest

/-- 70_reset_and_hazards.md R212: reset and INIT both leave H = IV, LEN = 0, PH = ACTIVE, INIT with a response and reset
without one, and from two engines so left no later events bring different responses. -/
def Obligations.ResetAndInitAreObservedTheSame : Prop :=
  (∀ s : State, ∃ t, exec .init s = .next t ∧ Initialized t ∧ t.rspChan = s.rspChan ++ [0x000]) ∧
  (∀ s : State, Initialized s.hwReset ∧ s.hwReset.rspChan = s.rspChan) ∧
  (∀ s t : State, Initialized s → Initialized t → s.cmdChan = t.cmdChan → s.rspChan = t.rspChan →
    ∃ s' t', runChannel s = .next s' ∧ runChannel t = .next t' ∧ s'.rspChan = t'.rspChan)

/-! ### INIT -/

/-- 43_commands.md R151: INIT in every phase; BUF, the working registers and J are not written. -/
def Obligations.InitBeginsANewComputation : Prop :=
  ∀ s : State, exec .init s = .next { s with
    H := ⟨0x67452301, 0xEFCDAB89, 0x98BADCFE, 0x10325476, 0xC3D2E1F0⟩
    LEN := 0
    PH := .active
    rspChan := s.rspChan ++ [0x000] }

/-! ### ABSORB -/

/-- 43_commands.md R152, 40_framer.md R88 steps 1 and 2: an accepted ABSORB that does not fill the block stores its byte
at LEN mod 64 and counts it, and does nothing else. -/
def Obligations.AbsorbStoresItsByte : Prop :=
  ∀ (b : Byte) (s : State), s.PH = .active → s.LEN.toNat + 1 < 2 ^ 61 → (s.LEN.toNat + 1) % 64 ≠ 0 →
    exec (.absorb b) s = .next { s with
      BUF := s.BUF.write (s.LEN.toNat % 64) b
      LEN := s.LEN + 1
      rspChan := s.rspChan ++ [0x000] }

/-- 43_commands.md R152, 40_framer.md R88 step 3: the ABSORB that fills the block compresses it inside the command.
B is the block: the 63 bytes the buffer holds and then b. THE MODEL'S OWN CHOICE in two clauses: that H shows the
compression at once, in phase ACTIVE (R88 promises neither timing, log 8), and that the 64 bytes then still stand in
BUF, where they are stale (R88, R30, V6; log 7). -/
def Obligations.AbsorbCompressesTheFullBlock : Prop :=
  ∀ (b : Byte) (B : Block) (s : State), s.PH = .active → s.LEN.toNat + 1 < 2 ^ 61 → (s.LEN.toNat + 1) % 64 = 0 →
    B.length = 63 → (∀ a < 63, s.BUF.read a = B[a]?) →
    ∃ t, exec (.absorb b) s = .next t ∧ t.H = COMPRESS s.H (PACK (B ++ [b])) ∧ t.LEN = s.LEN + 1 ∧
      t.PH = .active ∧ (∀ a < 64, t.BUF.read a = (B ++ [b])[a]?) ∧ t.cmdChan = s.cmdChan ∧
      t.rspChan = s.rspChan ++ [0x000]

/-- The frame of ABSORB (43_commands.md R152; 20_memory.md R42). Accepted, it stores to the one address `fill s` and every
other byte reads as before; H, the working registers and J change only when the block is full. THE MODEL'S OWN
CHOICE in what it says of stale bytes: those at and above the new fill, so all 64 when the block is full, may hold any
value (R88, R30, V6; log 7); and that a full block has been compressed at all is log 8. -/
def Obligations.AbsorbFrame : Prop :=
  ∀ (b : Byte) (s t : State), s.PH = .active → s.LEN.toNat + 1 < 2 ^ 61 → exec (.absorb b) s = .next t →
    t.BUF.read (fill s) = some b ∧ (∀ a, a ≠ fill s → t.BUF.read a = s.BUF.read a) ∧
    t.LEN.toNat = s.LEN.toNat + 1 ∧ t.PH = s.PH ∧ t.cmdChan = s.cmdChan ∧ t.rspChan = s.rspChan ++ [0x000] ∧
    ((s.LEN.toNat + 1) % 64 ≠ 0 → t.H = s.H ∧ t.L = s.L ∧ t.R = s.R ∧ t.J = s.J)

/-- 60_exceptions.md R184: ABSORB at LEN = 2^61 - 1 is rejected with ErrLen, no other ABSORB is, and FINAL accepts a
message of that length. -/
def Obligations.ErrLenOnlyAtTheLengthBound : Prop :=
  (∀ (b : Byte) (s : State), s.PH = .active → s.LEN.toNat = 2 ^ 61 - 1 →
    ∃ t, exec (.absorb b) s = .next t ∧ t.PH = .faulted ∧ t.rspChan = s.rspChan ++ [0x300] ∧
      t.cmdChan = s.cmdChan) ∧
  (∀ (b : Byte) (s t : State), exec (.absorb b) s = .next t → t.rspChan = s.rspChan ++ [0x300] →
    s.PH = .active ∧ s.LEN.toNat = 2 ^ 61 - 1) ∧
  (∀ s : State, Invariant s → s.PH = .active → s.LEN.toNat = 2 ^ 61 - 1 →
    ∃ t, exec .final s = .next t ∧ t.PH = .finalized ∧ t.rspChan = s.rspChan ++ [0x000])

/-! ### FINAL -/

/-- 43_commands.md R153, 40_framer.md R89 with a fill p of at most 55: one compression, of the p bytes T the buffer
holds, 0x80, 55 - p zeros and the length. LEN is not changed. THE MODEL'S OWN CHOICE in the clause on BUF after FINAL:
its bytes are dead then and may be kept or discarded (R30, V5; log 7). -/
def Obligations.FinalMakesOneBlock : Prop :=
  ∀ (T : List Byte) (s : State), s.PH = .active → s.LEN.toNat % 64 ≤ 55 → T.length = s.LEN.toNat % 64 →
    (∀ a < T.length, s.BUF.read a = T[a]?) →
    ∃ t, exec .final s = .next t ∧
      t.H = COMPRESS s.H
        (PACK (T ++ [0x80] ++ List.replicate (55 - T.length) 0 ++ bytesLE (s.LEN.toNat * 8) 8)) ∧
      (∀ a < 64, t.BUF.read a =
        (T ++ [0x80] ++ List.replicate (55 - T.length) 0 ++ bytesLE (s.LEN.toNat * 8) 8)[a]?) ∧
      t.LEN = s.LEN ∧ t.PH = .finalized ∧ t.cmdChan = s.cmdChan ∧ t.rspChan = s.rspChan ++ [0x000]

/-- 43_commands.md R153, 40_framer.md R89 with a fill p of 56 or more: two compressions, of the p bytes T the buffer
holds, 0x80 and 63 - p zeros, then of 56 zeros and the length. THE MODEL'S OWN CHOICE in the clause on BUF after FINAL:
its bytes are dead then and may be kept or discarded (R30, V5; log 7). -/
def Obligations.FinalMakesTwoBlocks : Prop :=
  ∀ (T : List Byte) (s : State), s.PH = .active → 56 ≤ s.LEN.toNat % 64 → T.length = s.LEN.toNat % 64 →
    (∀ a < T.length, s.BUF.read a = T[a]?) →
    ∃ t, exec .final s = .next t ∧
      t.H = COMPRESS (COMPRESS s.H (PACK (T ++ [0x80] ++ List.replicate (63 - T.length) 0)))
        (PACK (List.replicate 56 0 ++ bytesLE (s.LEN.toNat * 8) 8)) ∧
      (∀ a < 64, t.BUF.read a = (List.replicate 56 (0 : Byte) ++ bytesLE (s.LEN.toNat * 8) 8)[a]?) ∧
      t.LEN = s.LEN ∧ t.PH = .finalized ∧ t.cmdChan = s.cmdChan ∧ t.rspChan = s.rspChan ++ [0x000]

/-! ### READ -/

/-- 43_commands.md R154: READ k with k at least 20 is ErrEnc in every phase, any other READ outside FINALIZED is ErrSeq,
and in FINALIZED it responds with byte k mod 4 of H[k div 4] and writes no state. -/
def Obligations.ReadReturnsADigestByte : Prop :=
  ∀ (k : Byte) (s : State),
    (20 ≤ k.toNat → ∃ t, exec (.read k) s = .next t ∧ t.PH = .faulted ∧ t.rspChan = s.rspChan ++ [0x100] ∧
      t.cmdChan = s.cmdChan) ∧
    (k.toNat < 20 → s.PH ≠ .finalized → ∃ t, exec (.read k) s = .next t ∧ t.PH = .faulted ∧
      t.rspChan = s.rspChan ++ [0x200] ∧ t.cmdChan = s.cmdChan) ∧
    (k.toNat < 20 → s.PH = .finalized → exec (.read k) s = .next { s with
      rspChan := s.rspChan ++ [respToken .ok
        (BitVec.ofNat 8 ((hWord s.H (k.toNat / 4)).toNat / 2 ^ (8 * (k.toNat % 4)) % 256))] })

/-! ### Rejects -/

/-- 60_exceptions.md R186, R187: a command that ends in FAULTED has brought exactly one response, that of its reject,
and has left the channel of commands alone; a raise of any cause does so. What H, BUF, LEN, the working registers and J
hold from then on is dead: two engines in FAULTED with equal channels bring the same responses to every sequence of
events, whatever those hold (V3). The statement names no value of theirs. -/
def Obligations.RejectHasNoOtherObservableEffect : Prop :=
  (∀ (i : Instr) (s t : State), exec i s = .next t → t.PH = .faulted →
    ∃ e : Reject, t.rspChan = s.rspChan ++ [respToken (.err e) 0] ∧ t.cmdChan = s.cmdChan) ∧
  (∀ (e : Reject) (s : State), (s.raise e).PH = .faulted ∧
    (s.raise e).rspChan = s.rspChan ++ [respToken (.err e) 0] ∧ (s.raise e).cmdChan = s.cmdChan) ∧
  (∀ s t : State, s.PH = .faulted → t.PH = .faulted → s.cmdChan = t.cmdChan → s.rspChan = t.rspChan →
    ∃ s' t', runChannel s = .next s' ∧ runChannel t = .next t' ∧ s'.rspChan = t'.rspChan)

/-! ### The compressor -/

/-- 41_compressor.md R101: bit i of x becomes bit (i + n) mod 32, and the arithmetic form of the rotation. -/
def Obligations.RotationMovesEveryBit : Prop :=
  ∀ (x : Word) (n : Nat), n ≤ 31 →
    (∀ i < 32, (rol x n).getLsbD ((i + n) % 32) = x.getLsbD i) ∧
    (1 ≤ n → (rol x n).toNat = x.toNat * 2 ^ n % 2 ^ 32 + x.toNat / 2 ^ (32 - n)) ∧
    (n = 0 → rol x n = x)

/-- 41_compressor.md R107: the truth tables, at every bit position, for the input bits (x, y, z) = 000, ..., 111. -/
def Obligations.BooleanFunctionsHaveTheirTruthTables : Prop :=
  ∀ (x y z : Word) (i : Nat), i < 32 →
    let n := 4 * (x.getLsbD i).toNat + 2 * (y.getLsbD i).toNat + (z.getLsbD i).toNat
    ((f1 x y z).getLsbD i).toNat = [0, 1, 1, 0, 1, 0, 0, 1].getD n 2 ∧
    ((f2 x y z).getLsbD i).toNat = [0, 1, 0, 1, 0, 0, 1, 1].getD n 2 ∧
    ((f3 x y z).getLsbD i).toNat = [1, 0, 0, 1, 1, 0, 1, 0].getD n 2 ∧
    ((f4 x y z).getLsbD i).toNat = [0, 0, 1, 0, 0, 1, 1, 1].getD n 2 ∧
    ((f5 x y z).getLsbD i).toNat = [1, 0, 1, 1, 0, 1, 0, 0].getD n 2

/-- 41_compressor.md R108, R109, R110: the functions and constants of each of the 80 rounds of both lines. -/
def Obligations.RoundsUseTheirFunctionsAndConstants : Prop :=
  ∀ j < 80,
    fL j = [f1, f2, f3, f4, f5].getD (j / 16) f1 ∧ fR j = [f5, f4, f3, f2, f1].getD (j / 16) f1 ∧
    KL j = [0x00000000, 0x5A827999, 0x6ED9EBA1, 0x8F1BBCDC, 0xA953FD4E].getD (j / 16) 1 ∧
    KR j = [0x50A28BE6, 0x5C4DD124, 0x6D703EF3, 0x7A6D76E9, 0x00000000].getD (j / 16) 1

/-- 41_compressor.md R115: the checks of the tables. -/
def Obligations.TablesPassTheTranscriptionChecks : Prop :=
  (∀ row ∈ rowsRL ++ rowsRR, row.Perm (List.range 16)) ∧
  (∀ u < 4, rowsRL[u + 1]? = rowsRL[u]?.map fun row => row.map fun i =>
    [7, 4, 13, 1, 10, 6, 15, 3, 12, 0, 9, 5, 2, 14, 11, 8].getD i 16) ∧
  (∀ u < 4, rowsRR[u + 1]? = rowsRR[u]?.map fun row => row.map fun i =>
    [7, 4, 13, 1, 10, 6, 15, 3, 12, 0, 9, 5, 2, 14, 11, 8].getD i 16) ∧
  rowsRL[1]? = some [7, 4, 13, 1, 10, 6, 15, 3, 12, 0, 9, 5, 2, 14, 11, 8] ∧
  rowsRR[0]? = some ((List.range 16).map fun i => (9 * i + 5) % 16) ∧
  (∀ row ∈ rowsSL ++ rowsSR, ∀ n ∈ row, 5 ≤ n ∧ n ≤ 15) ∧
  rowsSL.map List.sum = [164, 162, 158, 163, 153] ∧ rowsSR.map List.sum = [164, 162, 158, 163, 153] ∧
  (rowsSL.map List.sum).sum = 800 ∧ (rowsSR.map List.sum).sum = 800 ∧
  (∀ row ∈ rowsRL ++ rowsRR, row.sum = 120) ∧
  (∀ w < 16, ((List.range 80).filter fun j => rL j == w).length = 5 ∧
    ((List.range 80).filter fun j => rR j == w).length = 5)

/-- 41_compressor.md R116, R117: one round of each line. -/
def Obligations.RoundMovesTheRegisters : Prop :=
  ∀ (X : List Word) (j : Nat) (r : LineRegs), X.length = 16 → j < 80 →
    roundL X j r =
      ⟨r.E, rol (r.A + fL j r.B r.C r.D + X.getD (rL j) 0 + KL j) (sL j) + r.E, r.B, rol r.C 10, r.D⟩ ∧
    roundR X j r =
      ⟨r.E, rol (r.A + fR j r.B r.C r.D + X.getD (rR j) 0 + KR j) (sR j) + r.E, r.B, rol r.C 10, r.D⟩

/-- 41_compressor.md R120: the five sums, their one-line form with indices modulo 5, and the form that updates H in
place, all the same. -/
def Obligations.CombineAddsOldStateAndBothLines : Prop :=
  ∀ (h : Running) (l r : LineRegs),
    combine h l r = ⟨h.h1 + l.C + r.D, h.h2 + l.D + r.E, h.h3 + l.E + r.A, h.h4 + l.A + r.B, h.h0 + l.B + r.C⟩ ∧
    (∀ i < 5, hWord (combine h l r) i =
      hWord h ((i + 1) % 5) + lineWord l ((i + 2) % 5) + lineWord r ((i + 3) % 5)) ∧
    combineInPlace h l r = combine h l r

/-- 41_compressor.md R125: every interleaving of the 80 left and the 80 right rounds gives the registers of LINE.L and
LINE.R, so COMBINE gives COMPRESS. -/
def Obligations.EveryScheduleOfTheLinesAgrees : Prop :=
  ∀ (h : Running) (X : List Word) (sched : List Side), sched.count .left = 80 → sched.count .right = 80 →
    Lines.run X (Lines.start h) sched = ⟨lineL h X, lineR h X, 80, 80⟩ ∧
    combine h (Lines.run X (Lines.start h) sched).l (Lines.run X (Lines.start h) sched).r = COMPRESS h X

/-- 41_compressor.md R126: after the start step, n round steps leave J = n; the 80 round steps and the combine step
give COMPRESS of R124 and touch nothing but H, the working registers and J; and that run is the machine's compression.
THE MODEL'S OWN CHOICE in what L, R and J hold after the combine step: those values are dead and may be kept or
discarded (R30, V5; log 7). -/
def Obligations.MicroStepsGiveCompress : Prop :=
  ∀ (X : List Word) (s : State),
    (∀ n ≤ 80, (microRun X n (startLines s)).J = n) ∧
    microRun X (80 + 1) (startLines s) =
      { s with H := COMPRESS s.H X, L := lineL s.H X, R := lineR s.H X, J := 80 } ∧
    compressWith X s = microRun X (80 + 1) (startLines s)

/-- 41_compressor.md R122: CHAIN over no block and over one block more. -/
def Obligations.ChainFoldsBlocksInOrder : Prop :=
  CHAIN [] = ⟨0x67452301, 0xEFCDAB89, 0x98BADCFE, 0x10325476, 0xC3D2E1F0⟩ ∧
  ∀ (Bs : List Block) (B : Block), CHAIN (Bs ++ [B]) = COMPRESS (CHAIN Bs) (PACK B)

/-! ### The framer -/

/-- 40_framer.md R81: the least k with (L + 1 + k) mod 64 = 56 (R80), and its closed forms. -/
def Obligations.PaddingZerosHaveAClosedForm : Prop :=
  ∀ L : Nat,
    (L + 1 + padZeros L) % 64 = 56 ∧ (∀ k < padZeros L, (L + 1 + k) % 64 ≠ 56) ∧
    (padZeros L : Int) = (55 - (L : Int)) % 64 ∧
    (L % 64 ≤ 55 → padZeros L = 55 - L % 64) ∧ (56 ≤ L % 64 → padZeros L = 119 - L % 64) ∧
    padZeros L ≤ 63 ∧ padZeros L = padZeros (L % 64)

/-- 40_framer.md R82: the padded message is N whole blocks. -/
def Obligations.PaddedLengthIsWholeBlocks : Prop :=
  ∀ M : List Byte, M.length < 2 ^ 61 →
    (padBytes M).length = M.length + 1 + padZeros M.length + 8 ∧
    (padBytes M).length = 64 * blockCount M.length ∧
    (M.length % 64 ≤ 55 → blockCount M.length = M.length / 64 + 1) ∧
    (56 ≤ M.length % 64 → blockCount M.length = M.length / 64 + 2) ∧
    64 * (blockCount M.length - 1) < M.length + 9 ∧ M.length + 9 ≤ 64 * blockCount M.length ∧
    1 ≤ blockCount M.length ∧ blockCount M.length ≤ 2 ^ 55 + 1

/-- 40_framer.md R84: every byte of the padded message by its index, and that PAD is injective, the message coming back
as the first (value of the length field) div 8 bytes. -/
def Obligations.PaddedMessageByteByByte : Prop :=
  (∀ M P : List Byte, PAD M = some P →
    P.length % 64 = 0 ∧
    (∀ i < M.length, P[i]? = M[i]?) ∧ P[M.length]? = some 0x80 ∧
    (∀ i, M.length < i → i < P.length - 8 → P[i]? = some 0) ∧
    (∀ i < 8, P[P.length - 8 + i]? = some (BitVec.ofNat 8 (M.length * 8 / 2 ^ (8 * i) % 256))) ∧
    M = P.take (leValue (P.drop (P.length - 8)) / 8)) ∧
  (∀ M M' P : List Byte, PAD M = some P → PAD M' = some P → M = M')

/-- 40_framer.md R87, 42_serializer.md R144: PAD and DIGEST have a value exactly for messages below 2^61 bytes. -/
def Obligations.PadAndDigestStopAtTheLengthBound : Prop :=
  ∀ M : List Byte, ((PAD M).isSome ↔ M.length < 2 ^ 61) ∧ ((DIGEST M).isSome ↔ M.length < 2 ^ 61)

/-- 20_memory.md R44, 40_framer.md R86: PACK reads a block as sixteen little-endian words, a bijection between 64-byte
blocks and 16-word sequences; in the engine it reads BUF. -/
def Obligations.PackIsALittleEndianBijection : Prop :=
  (∀ B : Block, B.length = 64 → (PACK B).length = 16 ∧
    ∀ t < 16, ∀ b0 b1 b2 b3 : Byte, B[4 * t]? = some b0 → B[4 * t + 1]? = some b1 → B[4 * t + 2]? = some b2 →
      B[4 * t + 3]? = some b3 →
      ∃ w, (PACK B)[t]? = some w ∧
        w.toNat = b0.toNat + 2 ^ 8 * b1.toNat + 2 ^ 16 * b2.toNat + 2 ^ 24 * b3.toNat) ∧
  (∀ B B' : Block, B.length = 64 → B'.length = 64 → PACK B = PACK B' → B = B') ∧
  (∀ X : List Word, X.length = 16 → ∃ B : Block, B.length = 64 ∧ PACK B = X) ∧
  (∀ (B : Block) (s : State), B.length = 64 → (∀ a < 64, s.BUF.read a = B[a]?) → packBuf s = .ok (PACK B))

/-- 20_memory.md R45: the length field of the last block, byte by byte and as the words X[14] and X[15]. -/
def Obligations.LengthFieldIsTheLastTwoWords : Prop :=
  ∀ M : List Byte, M.length < 2 ^ 61 →
    (∀ i < 8, (lengthField M.length)[i]? = some (BitVec.ofNat 8 (M.length * 8 / 2 ^ (8 * i) % 256))) ∧
    ∃ (Bs : List Block) (Q : List Byte), Q.length = 56 ∧
      SPLIT (padBytes M) = Bs ++ [Q ++ lengthField M.length] ∧
      (PACK (Q ++ lengthField M.length))[14]? = some (BitVec.ofNat 32 (M.length * 8 % 2 ^ 32)) ∧
      (PACK (Q ++ lengthField M.length))[15]? = some (BitVec.ofNat 32 (M.length * 8 / 2 ^ 32))

/-- 40_framer.md R85: SPLIT cuts 64 N bytes into the N blocks P[64(i-1) .. 64 i) in order. -/
def Obligations.SplitCutsWholeBlocksInOrder : Prop :=
  ∀ (P : List Byte) (N : Nat), P.length = 64 * N →
    (SPLIT P).length = N ∧ (∀ i < N, (SPLIT P)[i]? = some ((P.drop (64 * i)).take 64)) ∧
    (SPLIT P).flatten = P

/-! ### The serializer -/

/-- 42_serializer.md R140, R141: SER gives twenty bytes, byte k being byte k mod 4 of H[k div 4], and is a bijection
between running states and 20-byte sequences. -/
def Obligations.SerializerIsALittleEndianBijection : Prop :=
  (∀ h : Running, (SER h).length = 20 ∧
    ∀ k < 20, (SER h)[k]? = some (BitVec.ofNat 8 ((hWord h (k / 4)).toNat / 2 ^ (8 * (k % 4)) % 256))) ∧
  (∀ h h' : Running, SER h = SER h' → h = h') ∧
  (∀ d : List Byte, d.length = 20 → ∃ h, SER h = d)

/-- 42_serializer.md R142, R146: a digest has twenty bytes. -/
def Obligations.DigestIsTwentyBytes : Prop :=
  ∀ M d : List Byte, DIGEST M = some d → d.length = 20

/-! ### The whole machine -/

/-- The invariant holds after reset (10_state.md R32, R36). -/
def Obligations.InvariantHoldsAfterReset : Prop := Invariant State.reset

/-- Every step from every state of the invariant keeps it (10_state.md R23, R27, R35, R36): the buffer stays canonical,
J stays in 0..80, and in ACTIVE every byte below the fill holds a value. -/
def Obligations.StepKeepsTheInvariant : Prop :=
  ∀ s t : State, Invariant s → step s = .next t → Invariant t

/-- 70_reset_and_hazards.md R218: from every state of the invariant the step answers a next state, and a token is
answered by exactly one response. -/
def Obligations.EveryStepCompletes : Prop :=
  ∀ s : State, Invariant s → ∃ t, step s = .next t ∧
    (∀ tok rest, s.cmdChan = .token tok :: rest →
      t.cmdChan = rest ∧ ∃ r, t.rspChan = s.rspChan ++ [r])

/-- 10_state.md R36: from reset no sequence of tokens and resets, however long, reaches a fault of the model, and every
token is answered by exactly one response (30_encoding.md R60). -/
def Obligations.NoEventSequenceReachesAFault : Prop :=
  ∀ evs : List HostEvent, ∃ t, runChannel { State.reset with cmdChan := evs } = .next t ∧ t.cmdChan = [] ∧
    t.rspChan.length = (evs.filter HostEvent.answered).length

/-- 10_state.md R35, phase ACTIVE: INIT and reset begin with the empty message, and each accepted ABSORB adds its byte to
the message the state stands for. -/
def Obligations.AbsorbExtendsTheAbsorbedMessage : Prop :=
  (∀ s : State, ∃ t, exec .init s = .next t ∧ Absorbed [] t) ∧
  (∀ s : State, Absorbed [] s.hwReset) ∧
  (∀ (M : List Byte) (b : Byte) (s : State), Absorbed M s → M.length + 1 < 2 ^ 61 →
    ∃ t, exec (.absorb b) s = .next t ∧ Absorbed (M ++ [b]) t ∧ t.cmdChan = s.cmdChan ∧
      t.rspChan = s.rspChan ++ [0x000])

/-- 10_state.md R35, phase FINALIZED; 43_commands.md R153: FINAL leaves H = CHAIN of all blocks of PAD(M), so that
SER(H) = DIGEST(M). -/
def Obligations.FinalLeavesTheDigestOfTheMessage : Prop :=
  ∀ (M : List Byte) (s : State), Absorbed M s →
    ∃ t P, exec .final s = .next t ∧ PAD M = some P ∧ t.H = CHAIN (SPLIT P) ∧ DIGEST M = some (SER t.H) ∧
      t.PH = .finalized ∧ t.cmdChan = s.cmdChan ∧ t.rspChan = s.rspChan ++ [0x000]

/-- 43_commands.md R163: from any state, in any phase, INIT, one ABSORB a byte, FINAL and the twenty READs are accepted
throughout and bring back DIGEST(M); so they do after a reset without the INIT; and they take N compressions, of which
L div 64 happen inside ABSORBs. -/
def Obligations.HashSequenceReturnsTheDigest : Prop :=
  ∀ (M : List Byte) (s : State) (rest : List HostEvent), M.length < 2 ^ 61 → ∃ d, DIGEST M = some d ∧
    (∃ t : State, Host.Core.run core (M.length + 22) { s with cmdChan := toEvents (hashCommands M) ++ rest } = .next t ∧
      t.cmdChan = rest ∧
      t.rspChan = s.rspChan ++ List.replicate (M.length + 2) 0x000 ++ d.map (respToken .ok)) ∧
    (∃ t : State, Host.Core.run core (M.length + 22)
        { s with cmdChan := .reset :: toEvents (absorbAll M ++ .final :: digestReads) ++ rest } = .next t ∧
      t.cmdChan = rest ∧
      t.rspChan = s.rspChan ++ List.replicate (M.length + 1) 0x000 ++ d.map (respToken .ok)) ∧
    (∀ u, exec .init s = .next u →
      (handedBy (absorbAll M ++ [.final]) u).length = blockCount M.length ∧
      (handedBy (absorbAll M) u).length = M.length / 64)

/-- 40_framer.md R90: the blocks ABSORB and FINAL hand to COMPRESS, in order, are SPLIT(PAD(M)). -/
def Obligations.BlocksHandedAreThePaddedBlocks : Prop :=
  ∀ (M : List Byte) (s : State), Initialized s → M.length < 2 ^ 61 →
    ∃ P, PAD M = some P ∧ handedBy (absorbAll M ++ [.final]) s = SPLIT P

/-- 70_reset_and_hazards.md R217: an ABSORB performs at most one compression, a FINAL one or two, INIT and READ none, a
rejected command none (60_exceptions.md R187); and an accepted ABSORB or FINAL folds H over exactly the blocks that
`handed` lists. Of a rejected command no value of H is mentioned (R186). That an ABSORB folds its block in at once, in
phase ACTIVE, is the model's choice (40_framer.md R88, log 8). -/
def Obligations.WorkOfEachCommand : Prop :=
  ∀ s t : State,
    handed .init s = [] ∧ (∀ k, handed (.read k) s = []) ∧ (∀ b, (handed (.absorb b) s).length ≤ 1) ∧
    (∀ i, exec i s = .next t → t.PH = .faulted → handed i s = []) ∧
    (∀ b, exec (.absorb b) s = .next t → s.PH = .active → s.LEN.toNat + 1 < 2 ^ 61 →
      t.H = (handed (.absorb b) s).foldl foldBlock s.H) ∧
    (exec .final s = .next t → s.PH = .active →
      ((handed .final s).length = 1 ∨ (handed .final s).length = 2) ∧
      t.H = (handed .final s).foldl foldBlock s.H)

/-- 10_state.md R30 (V3 to V6): whatever two engines hold in their dead and hidden state, equal views bring equal
responses to every sequence of events, and end in equal views. -/
def Obligations.HiddenStateIsNeverObserved : Prop :=
  ∀ s t : State, SameView s t →
    ∃ s' t', runChannel s = .next s' ∧ runChannel t = .next t' ∧ SameView s' t'

/-- 43_commands.md R164: in phase ACTIVE any bytes that fit bring nothing but 0x000 for each ABSORB. -/
def Obligations.AbsorbingTellsTheHostNothing : Prop :=
  ∀ (M : List Byte) (s : State) (rest : List HostEvent), Invariant s → s.PH = .active →
    s.LEN.toNat + M.length < 2 ^ 61 → s.cmdChan = toEvents (absorbAll M) ++ rest →
    ∃ t : State, Host.Core.run core M.length s = .next t ∧ t.PH = .active ∧ t.cmdChan = rest ∧
      t.rspChan = s.rspChan ++ List.replicate M.length 0x000

/-- 60_exceptions.md R198: a step of one engine leaves every other engine as it was, does to its own engine what that
engine alone would do, and steps of two engines can be taken in either order. -/
def Obligations.EnginesAreIndependent : Prop :=
  (∀ (es es' : System) (n m : Nat), stepEngine n es = .next es' → m ≠ n → es'[m]? = es[m]?) ∧
  (∀ (es : System) (n : Nat) (s t : State), es[n]? = some s → step s = .next t →
    ∃ es', stepEngine n es = .next es' ∧ es'[n]? = some t) ∧
  (∀ (es e1 e2 : System) (n m : Nat), n ≠ m → stepEngine n es = .next e1 → stepEngine m es = .next e2 →
    ∃ e, stepEngine m e1 = .next e ∧ stepEngine n e2 = .next e)

/-- 30_encoding.md R69: the pseudo-instructions' expansions. For a text that is not ASCII, which R69 does not give, what
ABSORBS takes of a character is THE MODEL'S OWN CHOICE (log 21). -/
def Obligations.PseudoInstructionsExpand : Prop :=
  (∀ text, (ScriptLine.absorbs text).expand = text.map fun c => .absorb (BitVec.ofNat 8 c.toNat)) ∧
  (ScriptLine.absorbs []).expand = [] ∧
  (∀ b n, (ScriptLine.absorbn b n).expand = List.replicate n (.absorb b)) ∧
  (∀ k : Nat, k < 20 → ScriptLine.digest.expand[k]? = some (.read (BitVec.ofNat 8 k))) ∧
  ScriptLine.digest.expand.length = 20 ∧
  (∀ text, (ScriptLine.hash text).expand =
    [.init] ++ (ScriptLine.absorbs text).expand ++ [.final] ++ ScriptLine.digest.expand)
end

