-- ==== Sys2Proof/Laws/State.lean ====
section
/-!
SUPPORT. One lemma a field and update, each true by rfl: later proofs unfold no record update.
The parentheses of `(rfl)` keep simp from checking them by unfolding: on a state that holds a COMPRESS, the kernel would
evaluate the compression.
-/

namespace Sys2Proof.Machine

/-! ### setH -/

@[simp] theorem State.setH_H (v : Running) (s : State) : (s.setH v).H = v := (rfl)
@[simp] theorem State.setH_L (v : Running) (s : State) : (s.setH v).L = s.L := (rfl)
@[simp] theorem State.setH_R (v : Running) (s : State) : (s.setH v).R = s.R := (rfl)
@[simp] theorem State.setH_BUF (v : Running) (s : State) : (s.setH v).BUF = s.BUF := (rfl)
@[simp] theorem State.setH_LEN (v : Running) (s : State) : (s.setH v).LEN = s.LEN := (rfl)
@[simp] theorem State.setH_PH (v : Running) (s : State) : (s.setH v).PH = s.PH := (rfl)
@[simp] theorem State.setH_J (v : Running) (s : State) : (s.setH v).J = s.J := (rfl)
@[simp] theorem State.setH_cmdChan (v : Running) (s : State) : (s.setH v).cmdChan = s.cmdChan := (rfl)
@[simp] theorem State.setH_rspChan (v : Running) (s : State) : (s.setH v).rspChan = s.rspChan := (rfl)

/-! ### setL -/

@[simp] theorem State.setL_H (v : LineRegs) (s : State) : (s.setL v).H = s.H := (rfl)
@[simp] theorem State.setL_L (v : LineRegs) (s : State) : (s.setL v).L = v := (rfl)
@[simp] theorem State.setL_R (v : LineRegs) (s : State) : (s.setL v).R = s.R := (rfl)
@[simp] theorem State.setL_BUF (v : LineRegs) (s : State) : (s.setL v).BUF = s.BUF := (rfl)
@[simp] theorem State.setL_LEN (v : LineRegs) (s : State) : (s.setL v).LEN = s.LEN := (rfl)
@[simp] theorem State.setL_PH (v : LineRegs) (s : State) : (s.setL v).PH = s.PH := (rfl)
@[simp] theorem State.setL_J (v : LineRegs) (s : State) : (s.setL v).J = s.J := (rfl)
@[simp] theorem State.setL_cmdChan (v : LineRegs) (s : State) : (s.setL v).cmdChan = s.cmdChan := (rfl)
@[simp] theorem State.setL_rspChan (v : LineRegs) (s : State) : (s.setL v).rspChan = s.rspChan := (rfl)

/-! ### setR -/

@[simp] theorem State.setR_H (v : LineRegs) (s : State) : (s.setR v).H = s.H := (rfl)
@[simp] theorem State.setR_L (v : LineRegs) (s : State) : (s.setR v).L = s.L := (rfl)
@[simp] theorem State.setR_R (v : LineRegs) (s : State) : (s.setR v).R = v := (rfl)
@[simp] theorem State.setR_BUF (v : LineRegs) (s : State) : (s.setR v).BUF = s.BUF := (rfl)
@[simp] theorem State.setR_LEN (v : LineRegs) (s : State) : (s.setR v).LEN = s.LEN := (rfl)
@[simp] theorem State.setR_PH (v : LineRegs) (s : State) : (s.setR v).PH = s.PH := (rfl)
@[simp] theorem State.setR_J (v : LineRegs) (s : State) : (s.setR v).J = s.J := (rfl)
@[simp] theorem State.setR_cmdChan (v : LineRegs) (s : State) : (s.setR v).cmdChan = s.cmdChan := (rfl)
@[simp] theorem State.setR_rspChan (v : LineRegs) (s : State) : (s.setR v).rspChan = s.rspChan := (rfl)

/-! ### setBUF -/

@[simp] theorem State.setBUF_H (v : Memory) (s : State) : (s.setBUF v).H = s.H := (rfl)
@[simp] theorem State.setBUF_L (v : Memory) (s : State) : (s.setBUF v).L = s.L := (rfl)
@[simp] theorem State.setBUF_R (v : Memory) (s : State) : (s.setBUF v).R = s.R := (rfl)
@[simp] theorem State.setBUF_BUF (v : Memory) (s : State) : (s.setBUF v).BUF = v := (rfl)
@[simp] theorem State.setBUF_LEN (v : Memory) (s : State) : (s.setBUF v).LEN = s.LEN := (rfl)
@[simp] theorem State.setBUF_PH (v : Memory) (s : State) : (s.setBUF v).PH = s.PH := (rfl)
@[simp] theorem State.setBUF_J (v : Memory) (s : State) : (s.setBUF v).J = s.J := (rfl)
@[simp] theorem State.setBUF_cmdChan (v : Memory) (s : State) : (s.setBUF v).cmdChan = s.cmdChan := (rfl)
@[simp] theorem State.setBUF_rspChan (v : Memory) (s : State) : (s.setBUF v).rspChan = s.rspChan := (rfl)

/-! ### setLEN -/

@[simp] theorem State.setLEN_H (v : BitVec 61) (s : State) : (s.setLEN v).H = s.H := (rfl)
@[simp] theorem State.setLEN_L (v : BitVec 61) (s : State) : (s.setLEN v).L = s.L := (rfl)
@[simp] theorem State.setLEN_R (v : BitVec 61) (s : State) : (s.setLEN v).R = s.R := (rfl)
@[simp] theorem State.setLEN_BUF (v : BitVec 61) (s : State) : (s.setLEN v).BUF = s.BUF := (rfl)
@[simp] theorem State.setLEN_LEN (v : BitVec 61) (s : State) : (s.setLEN v).LEN = v := (rfl)
@[simp] theorem State.setLEN_PH (v : BitVec 61) (s : State) : (s.setLEN v).PH = s.PH := (rfl)
@[simp] theorem State.setLEN_J (v : BitVec 61) (s : State) : (s.setLEN v).J = s.J := (rfl)
@[simp] theorem State.setLEN_cmdChan (v : BitVec 61) (s : State) : (s.setLEN v).cmdChan = s.cmdChan := (rfl)
@[simp] theorem State.setLEN_rspChan (v : BitVec 61) (s : State) : (s.setLEN v).rspChan = s.rspChan := (rfl)

/-! ### setPH -/

@[simp] theorem State.setPH_H (v : Phase) (s : State) : (s.setPH v).H = s.H := (rfl)
@[simp] theorem State.setPH_L (v : Phase) (s : State) : (s.setPH v).L = s.L := (rfl)
@[simp] theorem State.setPH_R (v : Phase) (s : State) : (s.setPH v).R = s.R := (rfl)
@[simp] theorem State.setPH_BUF (v : Phase) (s : State) : (s.setPH v).BUF = s.BUF := (rfl)
@[simp] theorem State.setPH_LEN (v : Phase) (s : State) : (s.setPH v).LEN = s.LEN := (rfl)
@[simp] theorem State.setPH_PH (v : Phase) (s : State) : (s.setPH v).PH = v := (rfl)
@[simp] theorem State.setPH_J (v : Phase) (s : State) : (s.setPH v).J = s.J := (rfl)
@[simp] theorem State.setPH_cmdChan (v : Phase) (s : State) : (s.setPH v).cmdChan = s.cmdChan := (rfl)
@[simp] theorem State.setPH_rspChan (v : Phase) (s : State) : (s.setPH v).rspChan = s.rspChan := (rfl)

/-! ### setJ -/

@[simp] theorem State.setJ_H (v : Nat) (s : State) : (s.setJ v).H = s.H := (rfl)
@[simp] theorem State.setJ_L (v : Nat) (s : State) : (s.setJ v).L = s.L := (rfl)
@[simp] theorem State.setJ_R (v : Nat) (s : State) : (s.setJ v).R = s.R := (rfl)
@[simp] theorem State.setJ_BUF (v : Nat) (s : State) : (s.setJ v).BUF = s.BUF := (rfl)
@[simp] theorem State.setJ_LEN (v : Nat) (s : State) : (s.setJ v).LEN = s.LEN := (rfl)
@[simp] theorem State.setJ_PH (v : Nat) (s : State) : (s.setJ v).PH = s.PH := (rfl)
@[simp] theorem State.setJ_J (v : Nat) (s : State) : (s.setJ v).J = v := (rfl)
@[simp] theorem State.setJ_cmdChan (v : Nat) (s : State) : (s.setJ v).cmdChan = s.cmdChan := (rfl)
@[simp] theorem State.setJ_rspChan (v : Nat) (s : State) : (s.setJ v).rspChan = s.rspChan := (rfl)

/-! ### setCmdChan -/

@[simp] theorem State.setCmdChan_H (v : List HostEvent) (s : State) : (s.setCmdChan v).H = s.H := (rfl)
@[simp] theorem State.setCmdChan_L (v : List HostEvent) (s : State) : (s.setCmdChan v).L = s.L := (rfl)
@[simp] theorem State.setCmdChan_R (v : List HostEvent) (s : State) : (s.setCmdChan v).R = s.R := (rfl)
@[simp] theorem State.setCmdChan_BUF (v : List HostEvent) (s : State) : (s.setCmdChan v).BUF = s.BUF := (rfl)
@[simp] theorem State.setCmdChan_LEN (v : List HostEvent) (s : State) : (s.setCmdChan v).LEN = s.LEN := (rfl)
@[simp] theorem State.setCmdChan_PH (v : List HostEvent) (s : State) : (s.setCmdChan v).PH = s.PH := (rfl)
@[simp] theorem State.setCmdChan_J (v : List HostEvent) (s : State) : (s.setCmdChan v).J = s.J := (rfl)
@[simp] theorem State.setCmdChan_cmdChan (v : List HostEvent) (s : State) : (s.setCmdChan v).cmdChan = v := (rfl)
@[simp] theorem State.setCmdChan_rspChan (v : List HostEvent) (s : State) : (s.setCmdChan v).rspChan = s.rspChan := (rfl)

/-! ### setRspChan -/

@[simp] theorem State.setRspChan_H (v : List Token) (s : State) : (s.setRspChan v).H = s.H := (rfl)
@[simp] theorem State.setRspChan_L (v : List Token) (s : State) : (s.setRspChan v).L = s.L := (rfl)
@[simp] theorem State.setRspChan_R (v : List Token) (s : State) : (s.setRspChan v).R = s.R := (rfl)
@[simp] theorem State.setRspChan_BUF (v : List Token) (s : State) : (s.setRspChan v).BUF = s.BUF := (rfl)
@[simp] theorem State.setRspChan_LEN (v : List Token) (s : State) : (s.setRspChan v).LEN = s.LEN := (rfl)
@[simp] theorem State.setRspChan_PH (v : List Token) (s : State) : (s.setRspChan v).PH = s.PH := (rfl)
@[simp] theorem State.setRspChan_J (v : List Token) (s : State) : (s.setRspChan v).J = s.J := (rfl)
@[simp] theorem State.setRspChan_cmdChan (v : List Token) (s : State) : (s.setRspChan v).cmdChan = s.cmdChan := (rfl)
@[simp] theorem State.setRspChan_rspChan (v : List Token) (s : State) : (s.setRspChan v).rspChan = v := (rfl)

/-! ### respond -/

@[simp] theorem State.respond_H (st : Status) (d : Byte) (s : State) : (s.respond st d).H = s.H := (rfl)
@[simp] theorem State.respond_L (st : Status) (d : Byte) (s : State) : (s.respond st d).L = s.L := (rfl)
@[simp] theorem State.respond_R (st : Status) (d : Byte) (s : State) : (s.respond st d).R = s.R := (rfl)
@[simp] theorem State.respond_BUF (st : Status) (d : Byte) (s : State) : (s.respond st d).BUF = s.BUF := (rfl)
@[simp] theorem State.respond_LEN (st : Status) (d : Byte) (s : State) : (s.respond st d).LEN = s.LEN := (rfl)
@[simp] theorem State.respond_PH (st : Status) (d : Byte) (s : State) : (s.respond st d).PH = s.PH := (rfl)
@[simp] theorem State.respond_J (st : Status) (d : Byte) (s : State) : (s.respond st d).J = s.J := (rfl)
@[simp] theorem State.respond_cmdChan (st : Status) (d : Byte) (s : State) : (s.respond st d).cmdChan = s.cmdChan := (rfl)
@[simp] theorem State.respond_rspChan (st : Status) (d : Byte) (s : State) : (s.respond st d).rspChan = s.rspChan ++ [respToken st d] := (rfl)

/-! ### raise -/

@[simp] theorem State.raise_H (e : Reject) (s : State) : (s.raise e).H = s.H := (rfl)
@[simp] theorem State.raise_L (e : Reject) (s : State) : (s.raise e).L = s.L := (rfl)
@[simp] theorem State.raise_R (e : Reject) (s : State) : (s.raise e).R = s.R := (rfl)
@[simp] theorem State.raise_BUF (e : Reject) (s : State) : (s.raise e).BUF = s.BUF := (rfl)
@[simp] theorem State.raise_LEN (e : Reject) (s : State) : (s.raise e).LEN = s.LEN := (rfl)
@[simp] theorem State.raise_PH (e : Reject) (s : State) : (s.raise e).PH = .faulted := (rfl)
@[simp] theorem State.raise_J (e : Reject) (s : State) : (s.raise e).J = s.J := (rfl)
@[simp] theorem State.raise_cmdChan (e : Reject) (s : State) : (s.raise e).cmdChan = s.cmdChan := (rfl)
@[simp] theorem State.raise_rspChan (e : Reject) (s : State) : (s.raise e).rspChan = s.rspChan ++ [respToken (.err e) 0] := (rfl)

/-! ### begin -/

@[simp] theorem State.begin_H (s : State) : s.begin.H = IV := (rfl)
@[simp] theorem State.begin_L (s : State) : s.begin.L = s.L := (rfl)
@[simp] theorem State.begin_R (s : State) : s.begin.R = s.R := (rfl)
@[simp] theorem State.begin_BUF (s : State) : s.begin.BUF = s.BUF := (rfl)
@[simp] theorem State.begin_LEN (s : State) : s.begin.LEN = 0 := (rfl)
@[simp] theorem State.begin_PH (s : State) : s.begin.PH = .active := (rfl)
@[simp] theorem State.begin_J (s : State) : s.begin.J = s.J := (rfl)
@[simp] theorem State.begin_cmdChan (s : State) : s.begin.cmdChan = s.cmdChan := (rfl)
@[simp] theorem State.begin_rspChan (s : State) : s.begin.rspChan = s.rspChan := (rfl)

/-! ### hwReset -/

@[simp] theorem State.hwReset_H (s : State) : s.hwReset.H = IV := (rfl)
@[simp] theorem State.hwReset_L (s : State) : s.hwReset.L = resetLine := (rfl)
@[simp] theorem State.hwReset_R (s : State) : s.hwReset.R = resetLine := (rfl)
@[simp] theorem State.hwReset_BUF (s : State) : s.hwReset.BUF = [] := (rfl)
@[simp] theorem State.hwReset_LEN (s : State) : s.hwReset.LEN = 0 := (rfl)
@[simp] theorem State.hwReset_PH (s : State) : s.hwReset.PH = .active := (rfl)
@[simp] theorem State.hwReset_J (s : State) : s.hwReset.J = 0 := (rfl)
@[simp] theorem State.hwReset_cmdChan (s : State) : s.hwReset.cmdChan = s.cmdChan := (rfl)
@[simp] theorem State.hwReset_rspChan (s : State) : s.hwReset.rspChan = s.rspChan := (rfl)

/-! ### The micro-steps -/

@[simp] theorem startLines_H (s : State) : (startLines s).H = s.H := (rfl)
@[simp] theorem startLines_L (s : State) : (startLines s).L = loadLine s.H := (rfl)
@[simp] theorem startLines_R (s : State) : (startLines s).R = loadLine s.H := (rfl)
@[simp] theorem startLines_BUF (s : State) : (startLines s).BUF = s.BUF := (rfl)
@[simp] theorem startLines_LEN (s : State) : (startLines s).LEN = s.LEN := (rfl)
@[simp] theorem startLines_PH (s : State) : (startLines s).PH = s.PH := (rfl)
@[simp] theorem startLines_J (s : State) : (startLines s).J = 0 := (rfl)
@[simp] theorem startLines_cmdChan (s : State) : (startLines s).cmdChan = s.cmdChan := (rfl)
@[simp] theorem startLines_rspChan (s : State) : (startLines s).rspChan = s.rspChan := (rfl)

@[simp] theorem roundStep_H (X : List Word) (s : State) : (roundStep X s).H = s.H := (rfl)
@[simp] theorem roundStep_L (X : List Word) (s : State) : (roundStep X s).L = roundL X s.J s.L := (rfl)
@[simp] theorem roundStep_R (X : List Word) (s : State) : (roundStep X s).R = roundR X s.J s.R := (rfl)
@[simp] theorem roundStep_BUF (X : List Word) (s : State) : (roundStep X s).BUF = s.BUF := (rfl)
@[simp] theorem roundStep_LEN (X : List Word) (s : State) : (roundStep X s).LEN = s.LEN := (rfl)
@[simp] theorem roundStep_PH (X : List Word) (s : State) : (roundStep X s).PH = s.PH := (rfl)
@[simp] theorem roundStep_J (X : List Word) (s : State) : (roundStep X s).J = s.J + 1 := (rfl)
@[simp] theorem roundStep_cmdChan (X : List Word) (s : State) : (roundStep X s).cmdChan = s.cmdChan := (rfl)
@[simp] theorem roundStep_rspChan (X : List Word) (s : State) : (roundStep X s).rspChan = s.rspChan := (rfl)

@[simp] theorem combineStep_H (s : State) : (combineStep s).H = combine s.H s.L s.R := (rfl)
@[simp] theorem combineStep_L (s : State) : (combineStep s).L = s.L := (rfl)
@[simp] theorem combineStep_R (s : State) : (combineStep s).R = s.R := (rfl)
@[simp] theorem combineStep_BUF (s : State) : (combineStep s).BUF = s.BUF := (rfl)
@[simp] theorem combineStep_LEN (s : State) : (combineStep s).LEN = s.LEN := (rfl)
@[simp] theorem combineStep_PH (s : State) : (combineStep s).PH = s.PH := (rfl)
@[simp] theorem combineStep_J (s : State) : (combineStep s).J = s.J := (rfl)
@[simp] theorem combineStep_cmdChan (s : State) : (combineStep s).cmdChan = s.cmdChan := (rfl)
@[simp] theorem combineStep_rspChan (s : State) : (combineStep s).rspChan = s.rspChan := (rfl)

end Sys2Proof.Machine
end

