-- ==== Sys2Proof/Laws/Memory.lean ====
section
/-!
SUPPORT. The block buffer: read after write, frames, the canonical form, and one lemma a shared operation that says
everything it can do (memWrite, memZero, memRead1, memRead4, packBuf).
-/

namespace Sys2Proof.Machine

/-! ### One byte -/

@[simp] theorem Memory.read_write_same (m : Memory) (a : Nat) (b : Byte) : (m.write a b).read a = some b := by
  induction m with
  | nil => simp [Memory.write, Memory.read]
  | cons c m ih =>
    obtain ⟨x, c⟩ := c
    unfold Memory.write
    split
    · simp [Memory.read]
    · split
      · simp [Memory.read]
      · rename_i h1 h2
        simp [Memory.read, Ne.symm h2, ih]

theorem Memory.read_write_other (m : Memory) {a a' : Nat} (b : Byte) (h : a' ≠ a) :
    (m.write a b).read a' = m.read a' := by
  induction m with
  | nil => simp [Memory.write, Memory.read, Ne.symm h]
  | cons c m ih =>
    obtain ⟨x, c⟩ := c
    unfold Memory.write
    split
    · simp [Memory.read, Ne.symm h]
    · split
      · rename_i h1 h2
        subst h2
        simp [Memory.read, Ne.symm h]
      · simp [Memory.read, ih]

theorem Memory.mem_write {m : Memory} {a : Nat} {b : Byte} {c : Host.Cell} (h : c ∈ m.write a b) :
    c = (a, b) ∨ c ∈ m := by
  induction m with
  | nil => simpa [Memory.write] using h
  | cons d m ih =>
    obtain ⟨x, d⟩ := d
    unfold Memory.write at h
    split at h
    · simpa using h
    · split at h
      · rcases List.mem_cons.1 h with h | h
        · exact .inl h
        · exact .inr (List.mem_cons_of_mem _ h)
      · rcases List.mem_cons.1 h with h | h
        · exact .inr (h ▸ List.mem_cons_self)
        · exact (ih h).imp_right (List.mem_cons_of_mem _)

/-- A write keeps the canonical form. -/
theorem Memory.wf_write {m : Memory} {a : Nat} (b : Byte) (h : m.wf) (ha : a < 64) : (m.write a b).wf := by
  refine ⟨?_, ?_⟩
  · obtain ⟨hp, -⟩ := h
    induction m with
    | nil => simp [Memory.write]
    | cons c m ih =>
      obtain ⟨x, c⟩ := c
      simp only [List.map_cons, List.pairwise_cons, List.mem_map, forall_exists_index, and_imp] at hp
      obtain ⟨hx, hp⟩ := hp
      unfold Memory.write
      split
      · rename_i hax
        simp only [List.map_cons, List.pairwise_cons, List.mem_cons, List.mem_map, forall_eq_or_imp,
          forall_exists_index, and_imp]
        exact ⟨⟨hax, fun y d hd hy => Nat.lt_trans hax (hx y d hd hy)⟩, hx, hp⟩
      · split
        · rename_i _ hax
          subst hax
          simp only [List.map_cons, List.pairwise_cons, List.mem_map, forall_exists_index, and_imp]
          exact ⟨hx, hp⟩
        · rename_i h1 h2
          simp only [List.map_cons, List.pairwise_cons, List.mem_map, forall_exists_index, and_imp]
          refine ⟨?_, ih hp⟩
          rintro y d hd rfl
          rcases Memory.mem_write hd with rfl | hd
          · exact Nat.lt_of_le_of_ne (Nat.le_of_not_lt h1) (Ne.symm h2)
          · exact hx _ d hd rfl
  · intro c hc
    rcases Memory.mem_write hc with rfl | hc
    · exact ha
    · exact h.2 c hc

/-! ### Consecutive bytes -/

/-- Every byte of the buffer after a run of writes: the written one at its address, the old one elsewhere. -/
theorem Memory.read_writeList (bs : List Byte) :
    ∀ (m : Memory) (a a' : Nat), (m.writeList a bs).read a' =
      if a ≤ a' ∧ a' < a + bs.length then bs[a' - a]? else m.read a' := by
  induction bs with
  | nil => intro m a a'; simp [Memory.writeList]
  | cons b bs ih =>
    intro m a a'
    rw [Memory.writeList, ih]
    by_cases h1 : a' = a
    · subst h1
      rw [if_neg (by omega), if_pos (by simp)]
      simp
    · rw [Memory.read_write_other _ _ h1]
      by_cases h2 : a + 1 ≤ a' ∧ a' < a + 1 + bs.length
      · rw [if_pos h2, if_pos (by simp only [List.length_cons]; omega)]
        obtain ⟨k, hk⟩ : ∃ k, a' - a = k + 1 := ⟨a' - a - 1, by omega⟩
        rw [hk, List.getElem?_cons_succ, show a' - (a + 1) = k by omega]
      · rw [if_neg h2, if_neg (by simp only [List.length_cons]; omega)]

theorem Memory.wf_writeList (bs : List Byte) :
    ∀ {m : Memory} {a : Nat}, m.wf → a + bs.length ≤ 64 → (m.writeList a bs).wf := by
  induction bs with
  | nil => intro m a h _; exact h
  | cons b bs ih =>
    intro m a h ha
    simp only [List.length_cons] at ha
    exact ih (Memory.wf_write b h (by omega)) (by omega)

@[simp] theorem length_bytesLE (v n : Nat) : (bytesLE v n).length = n := by simp [bytesLE]

theorem getElem?_bytesLE (v n i : Nat) : (bytesLE v n)[i]? = if i < n then some (byteOf v i) else none := by
  unfold bytesLE
  split <;> rename_i h
  · simp [h]
  · simpa using h

/-! ### MemWrite and the zero loop -/

/-- All that MemWrite does inside the buffer. -/
theorem memWrite_ok {a n : Nat} (h : a + n ≤ 64) (v : Nat) (s : State) :
    memWrite a n v s = .ok (s.setBUF (s.BUF.writeList a (bytesLE v n))) := if_pos h

/-- The zero loop inside the buffer writes zeros there and nothing else. -/
theorem memZero_ok (n : Nat) : ∀ {a : Nat} (_ : a + n ≤ 64) (s : State),
    memZero a n s = .ok (s.setBUF (s.BUF.writeList a (List.replicate n 0))) := by
  induction n with
  | zero => intro a _ s; rfl
  | succ n ih =>
    intro a h s
    rw [memZero, memWrite_ok (by omega)]
    exact ih (by omega) _

/-! ### MemRead and PACK -/

/-- MemRead(a, 1) of a byte that holds a value. -/
theorem memRead1_ok {a : Nat} {s : State} {b : Byte} (ha : a < 64) (h : s.BUF.read a = some b) :
    memRead1 a s = .ok b := by
  rw [memRead1, if_pos (by omega), h]

/-- MemRead(4 t, 4) of a buffer that holds the block B is word t of PACK B. -/
theorem memRead4_ok {B : Block} {s : State} (hB : B.length = 64) (h : ∀ a < 64, s.BUF.read a = B[a]?) {t : Nat}
    (ht : t < 16) : memRead4 (wordAddr t) s = .ok (packWord B t) := by
  have hr : ∀ a < 64, memRead1 a s = .ok (B.getD a 0) := fun a ha => memRead1_ok ha (by
    rw [h a ha, List.getD_eq_getElem?_getD, List.getElem?_eq_getElem (by omega)]; rfl)
  unfold memRead4 wordAddr
  rw [if_pos (by omega), hr _ (by omega), hr _ (by omega), hr _ (by omega), hr _ (by omega)]
  rfl

theorem readWords_ok {B : Block} {s : State} (hB : B.length = 64) (h : ∀ a < 64, s.BUF.read a = B[a]?) (n : Nat) :
    ∀ t, t + n ≤ 16 → readWords t n s = .ok ((List.range' t n).map (packWord B)) := by
  induction n with
  | zero => intro t _; rfl
  | succ n ih =>
    intro t ht
    rw [readWords, memRead4_ok hB h (by omega), ih (t + 1) (by omega)]
    rfl

/-- PACK of a buffer that holds the block B. -/
theorem packBuf_ok {B : Block} {s : State} (hB : B.length = 64) (h : ∀ a < 64, s.BUF.read a = B[a]?) :
    packBuf s = .ok (PACK B) := by
  rw [packBuf, readWords_ok hB h 16 0 (by omega), PACK, List.range_eq_range']

end Sys2Proof.Machine
end

