-- ==== Sys2Proof/Laws/Compressor.lean ====
section
/-!
SUPPORT. The micro-steps of a compression (41_compressor.md R126): what they leave, and what they leave alone.
-/

namespace Sys2Proof.Machine

/-- n rounds from J = j: both lines n rounds further, J with them, nothing else. -/
theorem microRun_rounds (X : List Word) (n : Nat) : ∀ (s : State) (l r : LineRegs), s.J + n ≤ 80 →
    s.L = roundsL X l s.J → s.R = roundsR X r s.J →
    microRun X n s =
      ((s.setL (roundsL X l (s.J + n))).setR (roundsR X r (s.J + n))).setJ (s.J + n) := by
  induction n with
  | zero => intro s l r _ hl hr; rw [microRun, Nat.add_zero, ← hl, ← hr]; rfl
  | succ n ih =>
    intro s l r hn hl hr
    have h1 : microStep X s = roundStep X s := if_pos (by omega)
    rw [microRun, h1, ih (roundStep X s) l r (by simp only [roundStep_J]; omega)
      (by simp [hl, roundsL]) (by simp [hr, roundsR])]
    simp only [roundStep_J]
    rw [show s.J + 1 + n = s.J + (n + 1) by omega]
    rfl

theorem microRun_succ_right (X : List Word) (n : Nat) : ∀ s, microRun X (n + 1) s = microStep X (microRun X n s) := by
  induction n with
  | zero => intro s; rfl
  | succ n ih => intro s; rw [microRun, ih]; rfl

/-- The state after a whole compression. -/
def afterCompress (X : List Word) (s : State) : State :=
  (((s.setL (lineL s.H X)).setR (lineR s.H X)).setJ 80).setH (COMPRESS s.H X)

theorem microRun_start (X : List Word) (s : State) :
    microRun X 80 (startLines s) =
      (((startLines s).setL (lineL s.H X)).setR (lineR s.H X)).setJ 80 := by
  have h := microRun_rounds X 80 (startLines s) (loadLine s.H) (loadLine s.H) (by simp) rfl rfl
  simpa only [startLines_J, Nat.zero_add, lineL, lineR] using h

theorem microStep_combine (X : List Word) (s : State) (h : s.J = 80) : microStep X s = combineStep s :=
  if_neg (by omega)

theorem setLines_start (l r : LineRegs) (j : Nat) (s : State) :
    (((startLines s).setL l).setR r).setJ j = ((s.setL l).setR r).setJ j := rfl

/-- All that a compression does: H, the working registers and J (R124, R126). -/
theorem compressWith_eq (X : List Word) (s : State) : compressWith X s = afterCompress X s := by
  rw [compressWith, microRun_succ_right, microRun_start, microStep_combine X _ (State.setJ_J _ _), combineStep,
    State.setJ_H, State.setR_H, State.setL_H, startLines_H, State.setJ_L, State.setR_L, State.setL_L, State.setJ_R,
    State.setR_R, afterCompress, COMPRESS, setLines_start]

/-- H <- COMPRESS(H, PACK(BUF)) of a buffer that holds the block B: never a fault. -/
theorem compressBuf_ok {B : Block} {s : State} (hB : B.length = 64) (h : ∀ a < 64, s.BUF.read a = B[a]?) :
    compressBuf s = .ok (compressWith (PACK B) s) := by
  rw [compressBuf, packBuf_ok hB h]
  rfl

@[simp] theorem compressWith_H (X : List Word) (s : State) : (compressWith X s).H = COMPRESS s.H X := by
  simp [compressWith_eq, afterCompress]

@[simp] theorem compressWith_L (X : List Word) (s : State) : (compressWith X s).L = lineL s.H X := by
  simp [compressWith_eq, afterCompress]

@[simp] theorem compressWith_R (X : List Word) (s : State) : (compressWith X s).R = lineR s.H X := by
  simp [compressWith_eq, afterCompress]

@[simp] theorem compressWith_J (X : List Word) (s : State) : (compressWith X s).J = 80 := by
  simp [compressWith_eq, afterCompress]

@[simp] theorem compressWith_BUF (X : List Word) (s : State) : (compressWith X s).BUF = s.BUF := by
  simp [compressWith_eq, afterCompress]

@[simp] theorem compressWith_LEN (X : List Word) (s : State) : (compressWith X s).LEN = s.LEN := by
  simp [compressWith_eq, afterCompress]

@[simp] theorem compressWith_PH (X : List Word) (s : State) : (compressWith X s).PH = s.PH := by
  simp [compressWith_eq, afterCompress]

@[simp] theorem compressWith_cmdChan (X : List Word) (s : State) : (compressWith X s).cmdChan = s.cmdChan := by
  simp [compressWith_eq, afterCompress]

@[simp] theorem compressWith_rspChan (X : List Word) (s : State) : (compressWith X s).rspChan = s.rspChan := by
  simp [compressWith_eq, afterCompress]

end Sys2Proof.Machine
end

