-- ==== Sys2Proof/Laws/Commands.lean ====
section
/-!
SUPPORT. What each shared operation of a command can do, once: the checks, the end of a command, the accepted bodies of
ABSORB and FINAL, and the cases of a step.
-/

namespace Sys2Proof.Machine

/-! ### The response tokens of R62 with the filler byte -/

@[simp] theorem respToken_ok : respToken .ok 0#8 = 0x000#10 := rfl

@[simp] theorem respToken_errEnc : respToken (.err .errEnc) 0#8 = 0x100#10 := rfl

@[simp] theorem respToken_errSeq : respToken (.err .errSeq) 0#8 = 0x200#10 := rfl

@[simp] theorem respToken_errLen : respToken (.err .errLen) 0#8 = 0x300#10 := rfl

/-! ### The checks of R150 -/

theorem checkPhase_accepts {i : Instr} {s : State} (h : phaseAccepts i s.PH = true)
    (body : Host.Outcome State Fault Refusal) : checkPhase i s body = body := if_pos h

theorem checkPhase_rejects {i : Instr} {s : State} (h : phaseAccepts i s.PH = false)
    (body : Host.Outcome State Fault Refusal) : checkPhase i s body = .next (s.raise .errSeq) :=
  if_neg (by simp [h])

theorem lenFull_iff (s : State) : lenFull s = true ↔ s.LEN.toNat + 1 = Config.lenMax := by
  have h1 := s.LEN.isLt
  simp only [lenFull, Config.lenMax, beq_iff_eq]
  omega

theorem checkLen_room {s : State} (h : s.LEN.toNat + 1 < Config.lenMax) (body : Host.Outcome State Fault Refusal) :
    checkLen s body = body :=
  if_neg fun hf => absurd ((lenFull_iff s).1 hf) (by omega)

theorem checkLen_full {s : State} (h : s.LEN.toNat + 1 = Config.lenMax) (body : Host.Outcome State Fault Refusal) :
    checkLen s body = .next (s.raise .errLen) := if_pos ((lenFull_iff s).2 h)

theorem checkEnc_legal {i : Instr} (h : i.wellFormed = true) (s : State) (body : Host.Outcome State Fault Refusal) :
    checkEnc i s body = body := if_pos h

theorem checkEnc_reserved {i : Instr} (h : i.wellFormed = false) (s : State)
    (body : Host.Outcome State Fault Refusal) : checkEnc i s body = .next (s.raise .errEnc) :=
  if_neg (by simp [h])

/-- A command that ends in a next state has done its effect and responded OK. -/
theorem finish_next {r : Except Fault State} {t : State} :
    finish r = .next t ↔ ∃ s, r = .ok s ∧ t = s.respond .ok 0 := by
  cases r <;> simp [finish, eq_comm]

theorem compressBuf_next {s t : State} (h : compressBuf s = .ok t) :
    ∃ X, packBuf s = .ok X ∧ t = compressWith X s := by
  rw [compressBuf] at h
  cases hp : packBuf s with
  | error f => rw [hp] at h; cases h
  | ok X => rw [hp] at h; exact ⟨X, rfl, (Except.ok.inj h).symm⟩

/-! ### The fill and the counter -/

theorem fill_lt (s : State) : fill s < 64 := Nat.mod_lt _ (by omega)

@[simp] theorem fill_setBUF (m : Memory) (s : State) : fill (s.setBUF m) = fill s := (rfl)

@[simp] theorem fill_compressWith (X : List Word) (s : State) : fill (compressWith X s) = fill s := by
  simp [fill]

theorem toNat_succ_LEN {s : State} (h : s.LEN.toNat + 1 < Config.lenMax) : (s.LEN + 1).toNat = s.LEN.toNat + 1 := by
  simp only [Config.lenMax] at h
  rw [BitVec.toNat_add]
  exact Nat.mod_eq_of_lt h

/-! ### The accepted body of ABSORB (R88) -/

/-- Steps 1 and 2 of R88. -/
def stored (b : Byte) (s : State) : State := (s.setBUF (s.BUF.write (fill s) b)).setLEN (s.LEN + 1)

@[simp] theorem stored_H (b : Byte) (s : State) : (stored b s).H = s.H := (rfl)
@[simp] theorem stored_L (b : Byte) (s : State) : (stored b s).L = s.L := (rfl)
@[simp] theorem stored_R (b : Byte) (s : State) : (stored b s).R = s.R := (rfl)
@[simp] theorem stored_LEN (b : Byte) (s : State) : (stored b s).LEN = s.LEN + 1 := (rfl)
@[simp] theorem stored_PH (b : Byte) (s : State) : (stored b s).PH = s.PH := (rfl)
@[simp] theorem stored_J (b : Byte) (s : State) : (stored b s).J = s.J := (rfl)
@[simp] theorem stored_cmdChan (b : Byte) (s : State) : (stored b s).cmdChan = s.cmdChan := (rfl)
@[simp] theorem stored_rspChan (b : Byte) (s : State) : (stored b s).rspChan = s.rspChan := (rfl)

theorem bytesLE_one (b : Byte) : bytesLE b.toNat 1 = [b] := by
  simp [bytesLE, byteOf, List.range_succ]

theorem memWrite_fill (b : Byte) (s : State) :
    memWrite (fill s) 1 b.toNat s = .ok (s.setBUF (s.BUF.write (fill s) b)) := by
  rw [memWrite_ok (fill_lt s), bytesLE_one]
  rfl

/-- ABSORB's body: store and count, then compress if the block is full. -/
theorem absorbBody_eq (b : Byte) (s : State) :
    absorbBody b s = if fill (stored b s) = 0 then compressBuf (stored b s) else .ok (stored b s) := by
  rw [absorbBody, memWrite_fill]
  rfl

/-! ### The accepted body of FINAL (R89) -/

/-- Steps 1 and 2 of R89: 0x80 at the fill, zeros to the end. -/
def padded (s : State) : State :=
  s.setBUF ((s.BUF.write (fill s) Config.padByte).writeList (fill s + 1) (List.replicate (63 - fill s) 0))

/-- Step 3b of R89. -/
def cleared (s : State) : State := s.setBUF (s.BUF.writeList 0 (List.replicate 56 0))

/-- Step 4 of R89. -/
def lengthened (s : State) : State := s.setBUF (s.BUF.writeList 56 (lengthField s.LEN.toNat))

@[simp] theorem padded_H (s : State) : (padded s).H = s.H := by rw [padded, State.setBUF_H]
@[simp] theorem padded_L (s : State) : (padded s).L = s.L := by rw [padded, State.setBUF_L]
@[simp] theorem padded_R (s : State) : (padded s).R = s.R := by rw [padded, State.setBUF_R]
@[simp] theorem padded_LEN (s : State) : (padded s).LEN = s.LEN := by rw [padded, State.setBUF_LEN]
@[simp] theorem padded_PH (s : State) : (padded s).PH = s.PH := by rw [padded, State.setBUF_PH]
@[simp] theorem padded_J (s : State) : (padded s).J = s.J := by rw [padded, State.setBUF_J]
@[simp] theorem padded_cmdChan (s : State) : (padded s).cmdChan = s.cmdChan := by rw [padded, State.setBUF_cmdChan]
@[simp] theorem padded_rspChan (s : State) : (padded s).rspChan = s.rspChan := by rw [padded, State.setBUF_rspChan]

@[simp] theorem cleared_H (s : State) : (cleared s).H = s.H := by rw [cleared, State.setBUF_H]
@[simp] theorem cleared_L (s : State) : (cleared s).L = s.L := by rw [cleared, State.setBUF_L]
@[simp] theorem cleared_R (s : State) : (cleared s).R = s.R := by rw [cleared, State.setBUF_R]
@[simp] theorem cleared_LEN (s : State) : (cleared s).LEN = s.LEN := by rw [cleared, State.setBUF_LEN]
@[simp] theorem cleared_PH (s : State) : (cleared s).PH = s.PH := by rw [cleared, State.setBUF_PH]
@[simp] theorem cleared_J (s : State) : (cleared s).J = s.J := by rw [cleared, State.setBUF_J]
@[simp] theorem cleared_cmdChan (s : State) : (cleared s).cmdChan = s.cmdChan := by rw [cleared, State.setBUF_cmdChan]
@[simp] theorem cleared_rspChan (s : State) : (cleared s).rspChan = s.rspChan := by rw [cleared, State.setBUF_rspChan]

@[simp] theorem lengthened_H (s : State) : (lengthened s).H = s.H := by rw [lengthened, State.setBUF_H]
@[simp] theorem lengthened_L (s : State) : (lengthened s).L = s.L := by rw [lengthened, State.setBUF_L]
@[simp] theorem lengthened_R (s : State) : (lengthened s).R = s.R := by rw [lengthened, State.setBUF_R]
@[simp] theorem lengthened_LEN (s : State) : (lengthened s).LEN = s.LEN := by rw [lengthened, State.setBUF_LEN]
@[simp] theorem lengthened_PH (s : State) : (lengthened s).PH = s.PH := by rw [lengthened, State.setBUF_PH]
@[simp] theorem lengthened_J (s : State) : (lengthened s).J = s.J := by rw [lengthened, State.setBUF_J]
@[simp] theorem lengthened_cmdChan (s : State) : (lengthened s).cmdChan = s.cmdChan := by rw [lengthened, State.setBUF_cmdChan]
@[simp] theorem lengthened_rspChan (s : State) : (lengthened s).rspChan = s.rspChan := by rw [lengthened, State.setBUF_rspChan]

theorem padFill_eq (s : State) : padFill s = .ok (padded s) := by
  have h := fill_lt s
  rw [padFill, memWrite_fill]
  exact memZero_ok (63 - fill s) (a := fill s + 1) (by omega) _

theorem memZero_cleared (s : State) : memZero 0 56 s = .ok (cleared s) := by
  rw [cleared]
  exact memZero_ok 56 (a := 0) (by omega) s

theorem padLength_eq (s : State) : padLength s = compressBuf (lengthened s) := by
  rw [padLength, memWrite_ok (by omega)]
  rfl

@[simp] theorem fill_padded (s : State) : fill (padded s) = fill s := by rw [padded, fill_setBUF]

theorem padOverflow_short {s : State} (h : fill s < 56) : padOverflow s = .ok s :=
  if_neg (Nat.not_le_of_lt h)

theorem padOverflow_long {s : State} (h : 56 ≤ fill s) : padOverflow s = (compressBuf s).map cleared := by
  have hz : memZero 0 56 = fun s => .ok (cleared s) := funext memZero_cleared
  rw [padOverflow, if_pos h, hz]
  generalize compressBuf s = r
  cases r <;> simp only [Except.map, Except.bind]

theorem finalBody_eq (s : State) :
    finalBody s = ((padOverflow (padded s)).bind fun s1 => compressBuf (lengthened s1)).map (State.setPH .finalized) := by
  have hl : padLength = fun s => compressBuf (lengthened s) := funext padLength_eq
  rw [finalBody, padFill_eq, hl, Except.bind]

/-- FINAL's body with a fill of at most 55: one compression. -/
theorem finalBody_short {s : State} (h : fill s < 56) :
    finalBody s = (compressBuf (lengthened (padded s))).map (State.setPH .finalized) := by
  rw [finalBody_eq, padOverflow_short (by rwa [fill_padded]), Except.bind]

/-- FINAL's body with a fill of 56 or more: two compressions. -/
theorem finalBody_long {s : State} (h : 56 ≤ fill s) :
    finalBody s = ((compressBuf (padded s)).bind fun s1 => compressBuf (lengthened (cleared s1))).map
      (State.setPH .finalized) := by
  rw [finalBody_eq, padOverflow_long (by rwa [fill_padded])]
  generalize compressBuf (padded s) = r
  cases r <;> simp only [Except.map, Except.bind]

/-! ### What the buffer holds on the way -/

theorem padded_read {T : List Byte} {s : State} (hT : T.length = fill s)
    (h : ∀ a < fill s, s.BUF.read a = T[a]?) {a : Nat} (ha : a < 64) :
    (padded s).BUF.read a = (T ++ [Config.padByte] ++ List.replicate (63 - fill s) 0)[a]? := by
  have hf := fill_lt s
  rw [padded, State.setBUF_BUF, Memory.read_writeList, List.length_replicate]
  by_cases h1 : fill s + 1 ≤ a
  · rw [if_pos ⟨h1, by omega⟩, List.getElem?_append_right (by simp; omega)]
    simp [hT]
  · rw [if_neg (by omega), List.getElem?_append_left (by simp; omega)]
    by_cases h2 : a = fill s
    · subst h2
      rw [Memory.read_write_same, List.getElem?_append_right (by omega)]
      simp [hT]
    · rw [Memory.read_write_other _ _ h2, h a (by omega), List.getElem?_append_left (by omega)]

@[simp] theorem length_lengthField (L : Nat) : (lengthField L).length = 8 := by simp [lengthField]

theorem lengthened_read {Q : List Byte} {s : State} (hQ : Q.length = 56) (h : ∀ a < 56, s.BUF.read a = Q[a]?)
    {a : Nat} (ha : a < 64) : (lengthened s).BUF.read a = (Q ++ lengthField s.LEN.toNat)[a]? := by
  rw [lengthened, State.setBUF_BUF, Memory.read_writeList, length_lengthField]
  by_cases h1 : 56 ≤ a
  · rw [if_pos ⟨h1, by omega⟩, List.getElem?_append_right (by omega), hQ]
  · rw [if_neg (by omega), h a (by omega), List.getElem?_append_left (by omega)]

theorem cleared_read (s : State) {a : Nat} (ha : a < 56) :
    (cleared s).BUF.read a = (List.replicate 56 (0 : Byte))[a]? := by
  rw [cleared, State.setBUF_BUF, Memory.read_writeList, List.length_replicate, if_pos ⟨by omega, by omega⟩]
  simp

/-! ### The canonical form on the way -/

theorem wf_stored {b : Byte} {s : State} (h : s.BUF.wf) : (stored b s).BUF.wf := by
  rw [stored, State.setLEN_BUF, State.setBUF_BUF]
  exact Memory.wf_write b h (fill_lt s)

theorem wf_padded {s : State} (h : s.BUF.wf) : (padded s).BUF.wf := by
  have hf := fill_lt s
  rw [padded, State.setBUF_BUF]
  exact Memory.wf_writeList _ (Memory.wf_write _ h hf) (by rw [List.length_replicate]; omega)

theorem wf_cleared {s : State} (h : s.BUF.wf) : (cleared s).BUF.wf := by
  rw [cleared, State.setBUF_BUF]
  exact Memory.wf_writeList _ h (by rw [List.length_replicate]; omega)

theorem wf_lengthened {s : State} (h : s.BUF.wf) : (lengthened s).BUF.wf := by
  rw [lengthened, State.setBUF_BUF]
  exact Memory.wf_writeList _ h (by rw [length_lengthField])

/-- All that an accepted FINAL does when it does not fault: it ends with a compression, LEN and the channels are not
changed, the buffer stays canonical. -/
theorem finalBody_ok {s u : State} (h : finalBody s = .ok u) :
    ∃ X v, u = (compressWith X v).setPH .finalized ∧ v.LEN = s.LEN ∧ v.cmdChan = s.cmdChan ∧
      v.rspChan = s.rspChan ∧ (s.BUF.wf → v.BUF.wf) := by
  rw [finalBody_eq] at h
  have key : ∀ v : State, padOverflow (padded s) = .ok v → v.LEN = s.LEN ∧ v.cmdChan = s.cmdChan ∧
      v.rspChan = s.rspChan ∧ (s.BUF.wf → v.BUF.wf) := by
    intro v hv
    by_cases hf : fill s < 56
    · rw [padOverflow_short (by rwa [fill_padded])] at hv
      obtain rfl := Except.ok.inj hv
      exact ⟨padded_LEN s, padded_cmdChan s, padded_rspChan s, wf_padded⟩
    · rw [padOverflow_long (by rw [fill_padded]; omega)] at hv
      cases hc : compressBuf (padded s) with
      | error f => rw [hc] at hv; cases hv
      | ok w =>
        obtain ⟨X, -, hX⟩ := compressBuf_next hc
        rw [hc] at hv
        rw [← Except.ok.inj hv, hX]
        refine ⟨by simp, by simp, by simp, fun hw => wf_cleared ?_⟩
        rw [compressWith_BUF]
        exact wf_padded hw
  cases hp : padOverflow (padded s) with
  | error f => rw [hp] at h; cases h
  | ok v =>
    obtain ⟨h1, h2, h3, h4⟩ := key v hp
    rw [hp] at h
    simp only [Except.bind] at h
    cases hc : compressBuf (lengthened v) with
    | error f => rw [hc] at h; cases h
    | ok w =>
      obtain ⟨X, -, hX⟩ := compressBuf_next hc
      rw [hc] at h
      exact ⟨X, lengthened v, by rw [← hX]; exact (Except.ok.inj h).symm, by simp [h1], by simp [h2], by simp [h3],
        fun hw => wf_lengthened (h4 hw)⟩

/-! ### A command -/

/-- A command of a legal token that the phase does not accept raises ErrSeq. -/
theorem exec_wrong_phase {i : Instr} {s : State} (hw : i.wellFormed = true) (h : phaseAccepts i s.PH = false) :
    exec i s = .next (s.raise .errSeq) := by
  cases i with
  | init => simp [phaseAccepts] at h
  | absorb b => rw [exec, execAbsorb, checkPhase_rejects h]
  | final => rw [exec, execFinal, checkPhase_rejects h]
  | read k => rw [exec, execRead, checkEnc_legal hw, checkPhase_rejects h]

theorem exec_absorb_active {b : Byte} {s : State} (hp : s.PH = .active) (hl : s.LEN.toNat + 1 < Config.lenMax) :
    exec (.absorb b) s = finish (absorbBody b s) := by
  rw [exec, execAbsorb, checkPhase_accepts (by simp [phaseAccepts, hp]), checkLen_room hl]

theorem exec_absorb_full {b : Byte} {s : State} (hp : s.PH = .active) (hl : s.LEN.toNat + 1 = Config.lenMax) :
    exec (.absorb b) s = .next (s.raise .errLen) := by
  rw [exec, execAbsorb, checkPhase_accepts (by simp [phaseAccepts, hp]), checkLen_full hl]

theorem exec_final_active {s : State} (hp : s.PH = .active) : exec .final s = finish (finalBody s) := by
  rw [exec, execFinal, checkPhase_accepts (by simp [phaseAccepts, hp])]

/-- All that a command can do when it answers a next state: a reject, INIT, an accepted ABSORB (with or without a
compression), an accepted FINAL, an accepted READ. -/
theorem exec_next {i : Instr} {s t : State} (h : exec i s = .next t) :
    (∃ e, t = s.raise e ∧
      (e = .errLen → s.PH = .active ∧ s.LEN.toNat + 1 = Config.lenMax ∧ ∃ b, i = .absorb b)) ∨
    (i = .init ∧ t = s.begin.respond .ok 0) ∨
    (∃ b u, i = .absorb b ∧ s.PH = .active ∧ s.LEN.toNat + 1 < Config.lenMax ∧ t = u.respond .ok 0 ∧
      (fill (stored b s) ≠ 0 ∧ u = stored b s ∨
        fill (stored b s) = 0 ∧ ∃ X, packBuf (stored b s) = .ok X ∧ u = compressWith X (stored b s))) ∨
    (∃ u, i = .final ∧ s.PH = .active ∧ finalBody s = .ok u ∧ t = u.respond .ok 0) ∨
    (∃ k, i = .read k ∧ k.toNat ≤ 19 ∧ s.PH = .finalized ∧ t = s.respond .ok (readOperand k s)) := by
  cases hw : i.wellFormed with
  | false =>
    cases i with
    | read k =>
      rw [exec, execRead, checkEnc_reserved hw] at h
      exact .inl ⟨_, (Host.Outcome.next.inj h).symm, by simp⟩
    | _ => simp [Instr.wellFormed] at hw
  | true =>
    cases ha : phaseAccepts i s.PH with
    | false =>
      rw [exec_wrong_phase hw ha] at h
      exact .inl ⟨_, (Host.Outcome.next.inj h).symm, by simp⟩
    | true =>
      cases i with
      | init => exact .inr (.inl ⟨rfl, (Host.Outcome.next.inj h).symm⟩)
      | absorb b =>
        have hp : s.PH = .active := by simpa [phaseAccepts] using ha
        by_cases hl : s.LEN.toNat + 1 < Config.lenMax
        · rw [exec_absorb_active hp hl] at h
          obtain ⟨u, hu, ht⟩ := finish_next.1 h
          refine .inr (.inr (.inl ⟨b, u, rfl, hp, hl, ht, ?_⟩))
          rw [absorbBody_eq] at hu
          split at hu
          · rename_i h0; exact .inr ⟨h0, compressBuf_next hu⟩
          · rename_i h0; exact .inl ⟨h0, (Except.ok.inj hu).symm⟩
        · have hl' : s.LEN.toNat + 1 = Config.lenMax := by
            have h1 := s.LEN.isLt
            rw [Config.lenMax] at hl ⊢
            omega
          rw [exec_absorb_full hp hl'] at h
          exact .inl ⟨_, (Host.Outcome.next.inj h).symm, fun _ => ⟨hp, hl', b, rfl⟩⟩
      | final =>
        have hp : s.PH = .active := by simpa [phaseAccepts] using ha
        rw [exec_final_active hp] at h
        obtain ⟨u, hu, ht⟩ := finish_next.1 h
        exact .inr (.inr (.inr (.inl ⟨u, rfl, hp, hu, ht⟩)))
      | read k =>
        rw [exec, execRead, checkEnc_legal hw, checkPhase_accepts ha] at h
        exact .inr (.inr (.inr (.inr ⟨k, rfl, by simpa [Instr.wellFormed] using hw,
          by simpa [phaseAccepts] using ha, (Host.Outcome.next.inj h).symm⟩)))

/-- A buffer whose first n bytes all hold a value holds a byte sequence of length n there. -/
theorem bytes_of_filled {m : Memory} {n : Nat} (h : ∀ a < n, (m.read a).isSome) :
    ∃ T : List Byte, T.length = n ∧ ∀ a < n, m.read a = T[a]? := by
  refine ⟨(List.range n).map fun a => (m.read a).getD 0, by simp, fun a ha => ?_⟩
  obtain ⟨b, hb⟩ := Option.isSome_iff_exists.1 (h a ha)
  simp [List.getElem?_map, List.getElem?_range ha, hb]

/-! ### A step -/

/-- All that a step can do when it answers a next state. -/
theorem step_next {s t : State} (h : step s = .next t) :
    (s.cmdChan = [] ∧ t = s) ∨
    (∃ e rest, s.cmdChan = e :: rest ∧ (e = .reset ∨ ∃ tok, e = .tokenThenReset tok) ∧
      t = (s.setCmdChan rest).hwReset) ∨
    (∃ tok rest why, s.cmdChan = .token tok :: rest ∧ decode tok = .reserved why ∧
      t = (s.setCmdChan rest).raise .errEnc) ∨
    (∃ tok rest i, s.cmdChan = .token tok :: rest ∧ decode tok = .instr i ∧
      exec i (s.setCmdChan rest) = .next t) := by
  unfold step at h
  split at h
  · rename_i hc; exact .inl ⟨hc, (Host.Outcome.next.inj h).symm⟩
  · rename_i e rest hc
    cases e with
    | reset => exact .inr (.inl ⟨_, rest, hc, .inl rfl, (Host.Outcome.next.inj h).symm⟩)
    | tokenThenReset tok => exact .inr (.inl ⟨_, rest, hc, .inr ⟨tok, rfl⟩, (Host.Outcome.next.inj h).symm⟩)
    | token tok =>
      simp only [serve, execToken] at h
      split at h
      · rename_i i hd; exact .inr (.inr (.inr ⟨tok, rest, i, hc, hd, h⟩))
      · rename_i why hd
        exact .inr (.inr (.inl ⟨tok, rest, why, hc, hd, (Host.Outcome.next.inj h).symm⟩))

/-! ### A run -/

theorem run_next {n : Nat} {s t : State} (h : step s = .next t) :
    Host.Core.run core (n + 1) s = Host.Core.run core n t := by
  have h' : core.step s = .next t := h
  simp only [Host.Core.run]
  rw [h']

theorem run_add {m : Nat} (n : Nat) : ∀ {s t : State}, Host.Core.run core n s = .next t →
    Host.Core.run core (n + m) s = Host.Core.run core m t := by
  induction n with
  | zero =>
    intro s t h
    rw [show s = t from Host.Outcome.next.inj h, Nat.zero_add]
  | succ n ih =>
    intro s t h
    cases hs : step s with
    | next u =>
      rw [run_next hs] at h
      rw [Nat.add_right_comm, run_next hs]
      exact ih h
    | fault f =>
      have h' : core.step s = .fault f := hs
      simp only [Host.Core.run] at h
      rw [h'] at h
      cases h
    | refused r =>
      have h' : core.step s = .refused r := hs
      simp only [Host.Core.run] at h
      rw [h'] at h
      cases h

end Sys2Proof.Machine
end

