-- ==== Sys2Proof/Laws/Decode.lean ====
section
/-!
SUPPORT. The two fields of a token of format C (30_encoding.md R61).
-/

namespace Sys2Proof

theorem toNat_formatC (op : BitVec 2) (arg : Byte) : (formatC op arg).toNat = op.toNat * 256 + arg.toNat := by
  have h1 := op.isLt
  have h2 := arg.isLt
  simp only [formatC, BitVec.toNat_ofNat]
  omega

theorem toNat_opField (t : Token) : (opField t).toNat = t.toNat / 256 := by
  have h := t.isLt
  simp only [opField, BitVec.extractLsb'_toNat, Nat.shiftRight_eq_div_pow]
  omega

theorem toNat_argField (t : Token) : (argField t).toNat = t.toNat % 256 := by
  simp [argField, BitVec.extractLsb'_toNat]

@[simp] theorem opField_formatC (op : BitVec 2) (arg : Byte) : opField (formatC op arg) = op := by
  have h := arg.isLt
  apply BitVec.eq_of_toNat_eq
  rw [toNat_opField, toNat_formatC]
  omega

@[simp] theorem argField_formatC (op : BitVec 2) (arg : Byte) : argField (formatC op arg) = arg := by
  have h := arg.isLt
  apply BitVec.eq_of_toNat_eq
  rw [toNat_argField, toNat_formatC]
  omega

/-- A token is its two fields. -/
theorem formatC_fields (t : Token) : formatC (opField t) (argField t) = t := by
  apply BitVec.eq_of_toNat_eq
  rw [toNat_formatC, toNat_opField, toNat_argField]
  omega

end Sys2Proof
end

