-- ==== Sys2Proof/Laws/Framer.lean ====
section
/-!
SUPPORT. SPLIT and CHAIN over a sequence of whole blocks followed by one more (40_framer.md R85, 41_compressor.md R122).
-/

namespace Sys2Proof.Machine

theorem takeBlocks_append (n : Nat) : ∀ (P B : List Byte), P.length = 64 * n → B.length = 64 →
    takeBlocks (n + 1) (P ++ B) = takeBlocks n P ++ [B] := by
  induction n with
  | zero =>
    intro P B hP hB
    obtain rfl : P = [] := List.length_eq_zero_iff.1 (by omega)
    simp [takeBlocks, ← hB]
  | succ n ih =>
    intro P B hP hB
    rw [takeBlocks, List.take_append_of_le_length (by omega), List.drop_append_of_le_length (by omega),
      ih (P.drop 64) B (by simp; omega) hB, takeBlocks, List.cons_append]

/-- SPLIT takes a last block off. -/
theorem SPLIT_append {P B : List Byte} (hP : P.length % 64 = 0) (hB : B.length = 64) :
    SPLIT (P ++ B) = SPLIT P ++ [B] := by
  unfold SPLIT
  rw [List.length_append, hB, show (P.length + 64) / 64 = P.length / 64 + 1 by omega]
  exact takeBlocks_append _ P B (by omega) hB

@[simp] theorem SPLIT_nil : SPLIT [] = [] := rfl

@[simp] theorem CHAIN_nil : CHAIN [] = IV := rfl

/-- CHAIN folds a last block in. -/
theorem CHAIN_concat (Bs : List Block) (B : Block) : CHAIN (Bs ++ [B]) = foldBlock (CHAIN Bs) B := by
  simp [CHAIN]

end Sys2Proof.Machine
end

