-- ==== Sys2Proof/Laws/PerInstr.lean ====
section
/-!
SUPPORT. Statements made per command. Family EncodeFields: a command's token carries its opcode in `op` and its operand
in `arg`, whatever the operand (30_encoding.md R61, R64).
-/

namespace Sys2Proof.Laws.EncodeFields

def Statement (i : Instr) : Prop := opField (encode i) = i.opcode ∧ argField (encode i) = i.operand

theorem init : Statement .init := ⟨opField_formatC _ _, argField_formatC _ _⟩

theorem absorb (b : Byte) : Statement (.absorb b) := ⟨opField_formatC _ _, argField_formatC _ _⟩

theorem final : Statement .final := ⟨opField_formatC _ _, argField_formatC _ _⟩

theorem read (k : Byte) : Statement (.read k) := ⟨opField_formatC _ _, argField_formatC _ _⟩

end Sys2Proof.Laws.EncodeFields
end

