-- ==== Sys2Proof/Laws/Work.lean ====
section
/-!
SUPPORT. The blocks a command hands to COMPRESS (40_framer.md R88 to R90), in terms of what the buffer holds on the way,
and the converse of `packBuf_ok`: what PACK has read when it did not fault.
-/

namespace Sys2Proof.Machine

/-- A buffer that holds the block B is B. -/
theorem blockOf_eq {m : Memory} {B : Block} (hB : B.length = 64) (h : ∀ a < 64, m.read a = B[a]?) : blockOf m = B := by
  apply List.ext_getElem?
  intro a
  by_cases ha : a < 64
  · simp [blockOf, ha, h a ha, List.getElem?_eq_getElem (show a < B.length by omega)]
  · rw [List.getElem?_eq_none (by simp [blockOf]; omega), List.getElem?_eq_none (by omega)]

theorem absorbBlocks_eq (b : Byte) (s : State) :
    absorbBlocks b s = if fill (stored b s) = 0 then [blockOf (stored b s).BUF] else [] := by
  rw [absorbBlocks, memWrite_fill]
  rfl

theorem lastBlocks_eq (s : State) : lastBlocks s = [blockOf (lengthened s).BUF] := by
  rw [lastBlocks, memWrite_ok (by omega)]
  rfl

theorem finalBlocks_eq (s : State) :
    finalBlocks s =
      if 56 ≤ fill s then [blockOf (padded s).BUF, blockOf (lengthened (cleared (padded s))).BUF]
      else [blockOf (lengthened (padded s)).BUF] := by
  rw [finalBlocks, padFill_eq]
  simp only [fill_padded]
  split
  · rw [memZero_cleared]
    simp only [lastBlocks_eq]
  · exact lastBlocks_eq _

theorem memRead1_next {a : Nat} {s : State} {b : Byte} (h : memRead1 a s = .ok b) : s.BUF.read a = some b := by
  unfold memRead1 at h
  split at h
  · split at h
    · cases h; assumption
    · cases h
  · cases h

theorem memRead4_next {a : Nat} {s : State} {w : Word} (h : memRead4 a s = .ok w) :
    ∀ i < 4, (s.BUF.read (a + i)).isSome := by
  unfold memRead4 at h
  split at h
  · cases h0 : memRead1 a s with
    | error f => rw [h0] at h; cases h
    | ok b0 => cases h1 : memRead1 (a + 1) s with
      | error f => rw [h0, h1] at h; cases h
      | ok b1 => cases h2 : memRead1 (a + 2) s with
        | error f => rw [h0, h1, h2] at h; cases h
        | ok b2 => cases h3 : memRead1 (a + 3) s with
          | error f => rw [h0, h1, h2, h3] at h; cases h
          | ok b3 =>
            intro i hi
            match i, hi with
            | 0, _ => rw [Nat.add_zero, memRead1_next h0]; rfl
            | 1, _ => rw [memRead1_next h1]; rfl
            | 2, _ => rw [memRead1_next h2]; rfl
            | 3, _ => rw [memRead1_next h3]; rfl
  · cases h

theorem readWords_next {s : State} (n : Nat) : ∀ {t : Nat} {X : List Word}, readWords t n s = .ok X →
    ∀ k < n, ∀ i < 4, (s.BUF.read (wordAddr (t + k) + i)).isSome := by
  induction n with
  | zero => intro t X _ k hk; omega
  | succ n ih =>
    intro t X h k hk
    unfold readWords at h
    cases h0 : memRead4 (wordAddr t) s with
    | error f => rw [h0] at h; cases h
    | ok x => cases h1 : readWords (t + 1) n s with
      | error f => rw [h0, h1] at h; cases h
      | ok xs =>
        cases k with
        | zero => exact memRead4_next h0
        | succ k =>
          have := ih h1 k (by omega)
          rwa [show t + 1 + k = t + (k + 1) by omega] at this

/-- PACK answers only when all 64 bytes hold values, and then it has read that block. -/
theorem packBuf_next {s : State} {X : List Word} (h : packBuf s = .ok X) :
    (∀ a < 64, (s.BUF.read a).isSome) ∧ X = PACK (blockOf s.BUF) := by
  have hall : ∀ a < 64, (s.BUF.read a).isSome := fun a ha => by
    have := readWords_next 16 h (a / 4) (by omega) (a % 4) (by omega)
    rwa [wordAddr, show 4 * (0 + a / 4) + a % 4 = a by omega] at this
  refine ⟨hall, ?_⟩
  have hp : packBuf s = .ok (PACK (blockOf s.BUF)) := packBuf_ok (by simp [blockOf]) fun a ha => by
    obtain ⟨b, hb⟩ := Option.isSome_iff_exists.1 (hall a ha)
    simp [blockOf, ha, hb]
  rw [hp] at h
  exact (Except.ok.inj h).symm

end Sys2Proof.Machine
end

