-- ==== Sys2Proof/Tests/Slice0.lean ====
section
/-!
SUPPORT. Tests, whose expected values are the spec's own (each names its rule or section), and one witness a statement
that has hypotheses: concrete states and operands that meet all of them together.
-/

namespace Sys2Proof.Machine.Tests

/-! ### Small states -/

/-- The state after reset with events on the command channel. -/
def given (evs : List HostEvent) : State := State.reset.setCmdChan evs

/-- ACTIVE with the bytes of "abc" absorbed. -/
def abcState : State := (State.reset.setBUF [(0, 0x61), (1, 0x62), (2, 0x63)]).setLEN 3

/-- FINALIZED with the H that 43_commands.md R153 gives for "abc". -/
def abcFinal : State :=
  (State.reset.setH ⟨0xF708B28E, 0x7A985DE0, 0x8E4A049B, 0x87B0C698, 0xFC0B5AF1⟩).setPH .finalized

/-- FAULTED, with commands on the channel. -/
def faultedState (evs : List HostEvent) : State := (given evs).setPH .faulted

/-- ACTIVE, with n bytes 0x61 in the buffer and the given LEN. -/
def partState (n : Nat) (len : BitVec 61) : State :=
  (State.reset.setBUF ((List.range n).map fun a => (a, (0x61 : Byte)))).setLEN len

/-- The response a step appends last, and the phase after it. -/
def answer : Host.Outcome State Fault Refusal → Option (Option Token × Phase)
  | .next s => some (s.rspChan.getLast?, s.PH)
  | .fault _ => none
  | .refused _ => none

/-- H after a step. -/
def runningOf : Host.Outcome State Fault Refusal → Option Running
  | .next s => some s.H
  | .fault _ => none
  | .refused _ => none

/-- LEN and BUF after a step. -/
def bufferOf : Host.Outcome State Fault Refusal → Option (BitVec 61 × Memory)
  | .next s => some (s.LEN, s.BUF)
  | .fault _ => none
  | .refused _ => none

/-- A bit for `next`, so that a witness of a step can be decided. -/
def isNext : Host.Outcome State Fault Refusal → Bool
  | .next _ => true
  | .fault _ => false
  | .refused _ => false

theorem exists_of_isNext {r : Host.Outcome State Fault Refusal} (h : isNext r = true) : ∃ t, r = .next t := by
  cases r with
  | next t => exact ⟨t, rfl⟩
  | fault f => cases h
  | refused f => cases h

/-! ### Well-formedness (30_encoding.md R64): READ's address is the one check -/

theorem test_wf_read_20_refused : (Instr.read 20).wellFormed = false := by decide
theorem test_wf_read_255_refused : (Instr.read 255).wellFormed = false := by decide
theorem test_wf_read_19 : (Instr.read 19).wellFormed = true := by decide

/-! ### Decoding, the words written out from 30_encoding.md R61 and R64 and from 95_test_vectors.md section 6.5 -/

theorem test_decode_init : decode 0b0000000000 = .instr .init := by decide
theorem test_decode_absorb : decode 0b0101100001 = .instr (.absorb 0x61) := by decide
theorem test_decode_absorb_last : decode 0b0111111111 = .instr (.absorb 0xFF) := by decide
theorem test_decode_final : decode 0b1000000000 = .instr .final := by decide
theorem test_decode_read : decode 0b1100000000 = .instr (.read 0) := by decide
theorem test_decode_read_last : decode 0b1100010011 = .instr (.read 19) := by decide
theorem test_decode_reserved :
    [0x001, 0x080, 0x0FF, 0x201, 0x2FF, 0x314, 0x320, 0x3FF].all
      (fun t => (decodeTableWord 16 t).isNone) = true := by decide
theorem test_encode : encode .init = 0x000 ∧ encode (.absorb 0x61) = 0x161 ∧ encode .final = 0x200 ∧
    encode (.read 19) = 0x313 := by decide
theorem test_word_above_ten_bits_is_no_token : decodeTableWord 16 0x400 = none := by decide
theorem test_fetch_runs_word : answer (step (State.reset.withFetchWord 16 0x161)) = some (some 0x000, .active) := by
  decide

/-! ### Arithmetic and tables (95_test_vectors.md sections 6.1 to 6.4; 41_compressor.md R107, R101, R100) -/

theorem test_f1 : f1 0x12345678 0x9ABCDEF0 0x0F1E2D3C = 0x8796A5B4 := by decide
theorem test_f2 : f2 0x12345678 0x9ABCDEF0 0x0F1E2D3C = 0x1F3E7F74 := by decide
theorem test_f3 : f3 0x12345678 0x9ABCDEF0 0x0F1E2D3C = 0x78695A43 := by decide
theorem test_f4 : f4 0x12345678 0x9ABCDEF0 0x0F1E2D3C = 0x92B4D6F8 := by decide
theorem test_f5 : f5 0x12345678 0x9ABCDEF0 0x0F1E2D3C = 0xE8C9888B := by decide
theorem test_rol : rol 0x80000000 5 = 0x00000010 ∧ rol 0x00010000 15 = 0x80000000 ∧
    rol 0x98BADCFE 10 = 0xEB73FA62 ∧ rol 0x12345678 15 = 0x2B3C091A := by decide
theorem test_add_wraps : (0x6D431A77 : Word) + 0xC3D2E1F0 = 0x3115FC67 := by decide
theorem test_le32 : le32 0x61 0x62 0x63 0x80 = 0x80636261 := by decide
theorem test_bytesLE : bytesLE 0x1C0 8 = [0xc0, 0x01, 0, 0, 0, 0, 0, 0] := by decide

/-! ### One round, the lines and COMBINE on the block of "abc" (41_compressor.md R116 to R120) -/

/-- The words of PAD("abc") (40_framer.md R86). -/
def abcWords : List Word := [0x80636261, 0, 0, 0, 0, 0, 0, 0, 0, 0, 0, 0, 0, 0, 0x18, 0]

theorem test_roundL : roundL abcWords 0 (loadLine IV) =
    ⟨0xC3D2E1F0, 0x3115FC67, 0xEFCDAB89, 0xEB73FA62, 0x10325476⟩ := by decide +kernel
theorem test_roundR : roundR abcWords 0 (loadLine IV) =
    ⟨0xC3D2E1F0, 0xDDD63FB8, 0xEFCDAB89, 0xEB73FA62, 0x10325476⟩ := by decide +kernel
theorem test_lineL : lineL IV abcWords =
    ⟨0x641129CA, 0xD563BFDC, 0x0B2CDC01, 0x6E413468, 0xFC433DA8⟩ := by decide +kernel
theorem test_lineR : lineR IV abcWords =
    ⟨0x81D4727D, 0x5FCCBADE, 0xBF627814, 0xFC0E2B04, 0x739C4C7A⟩ := by decide +kernel
theorem test_combine :
    combine IV ⟨0x641129CA, 0xD563BFDC, 0x0B2CDC01, 0x6E413468, 0xFC433DA8⟩
      ⟨0x81D4727D, 0x5FCCBADE, 0xBF627814, 0xFC0E2B04, 0x739C4C7A⟩ =
    ⟨0xF708B28E, 0x7A985DE0, 0x8E4A049B, 0x87B0C698, 0xFC0B5AF1⟩ := by decide
/-- 95_test_vectors.md section 4.3. -/
theorem test_compress_ones :
    COMPRESS ⟨0xFFFFFFFF, 0xFFFFFFFF, 0xFFFFFFFF, 0xFFFFFFFF, 0xFFFFFFFF⟩ (PACK (List.replicate 64 0xff)) =
    ⟨0xF282655D, 0xD3828CF1, 0x4FE5E0C5, 0xA3892B3E, 0xD14F6FCE⟩ := by decide +kernel

/-! ### The framer (40_framer.md R80, R81, R86; 95_test_vectors.md sections 3 and 4.1) -/

theorem test_padZeros : padZeros 0 = 55 ∧ padZeros 55 = 0 ∧ padZeros 56 = 63 ∧ padZeros 57 = 62 ∧ padZeros 63 = 56 ∧
    padZeros (2 ^ 61 - 1) = 56 := by decide +kernel
theorem test_pad_abc : PAD [0x61, 0x62, 0x63] =
    some ([0x61, 0x62, 0x63, 0x80] ++ List.replicate 52 0 ++ [0x18, 0, 0, 0, 0, 0, 0, 0]) := by decide +kernel
theorem test_pack_abc : (PAD [0x61, 0x62, 0x63]).map PACK = some abcWords := by decide +kernel
theorem test_lengthField_top : lengthField (2 ^ 61 - 1) = [0xf8, 0xff, 0xff, 0xff, 0xff, 0xff, 0xff, 0xff] := by
  decide +kernel
theorem test_split_56 : (SPLIT (padBytes (List.replicate 56 0x61))).length = 2 := by decide +kernel

/-! ### Digests: the three of 95_test_vectors.md section 1 (41_compressor.md R127 asks for them), and two-block ones -/

theorem test_digest_empty : (DIGEST []).map renderHex = some "9c1185a5c5e9fc54612808977ee8f548b2258d31".toList := by
  decide +kernel
theorem test_digest_a : (DIGEST [0x61]).map renderHex = some "0bdc9d2d256b3ee9daae347be6f4dc835a467ffe".toList := by
  decide +kernel
theorem test_digest_abc :
    (DIGEST [0x61, 0x62, 0x63]).map renderHex = some "8eb208f7e05d987a9b044a8e98c6b087f15a0bfc".toList := by
  decide +kernel
/-- 95_test_vectors.md section 3, L = 55, the longest with one block. -/
theorem test_digest_55 :
    (DIGEST (List.replicate 55 0x61)).map renderHex = some "0d8a8c9063a48576a7c97e9f95253a6e53ff6765".toList := by
  decide +kernel
/-- 95_test_vectors.md section 3, L = 56, the shortest with two. -/
theorem test_digest_56 :
    (DIGEST (List.replicate 56 0x61)).map renderHex = some "e72334b46c83cc70bef979e15453706c95b888be".toList := by
  decide +kernel
/-- 95_test_vectors.md section 2: a message that looks like padding. -/
theorem test_digest_80 :
    (DIGEST [0x80]).map renderHex = some "b436441e6bb882fe0a0fa0320cb2d97d96b4d1bc".toList := by decide +kernel

/-! ### The commands, one step each (43_commands.md R151 to R154; 95_test_vectors.md sections 6.6 and 7) -/

theorem test_init_leaves_faulted :
    answer (step (faultedState [.token 0x000])) = some (some 0x000, .active) := by decide
theorem test_init_resets_len : bufferOf (exec .init abcState) = some (0, [(0, 0x61), (1, 0x62), (2, 0x63)]) := by
  decide
theorem test_absorb_first : bufferOf (exec (.absorb 0x61) State.reset) = some (1, [(0, 0x61)]) := by decide
/-- P12: LEN = 2^61 - 1. -/
theorem test_errLen :
    answer (exec (.absorb 0x00) (partState 63 (BitVec.ofNat 61 (2 ^ 61 - 1)))) = some (some 0x300, .faulted) := by
  decide +kernel
/-- P4: the 64th ABSORB compresses. -/
theorem test_absorb_compresses :
    runningOf (exec (.absorb 0x61) (partState 63 63)) =
      some ⟨0xD42339F0, 0xCE5B9F6F, 0x2874A075, 0xDF67AAF1, 0xC6C1BE1C⟩ := by decide +kernel
theorem test_final_abc :
    runningOf (exec .final abcState) = some ⟨0xF708B28E, 0x7A985DE0, 0x8E4A049B, 0x87B0C698, 0xFC0B5AF1⟩ := by
  decide +kernel
/-- 95_test_vectors.md section 4.2, 56 bytes 0x61: two compressions. -/
theorem test_final_two_blocks :
    runningOf (exec .final (partState 56 56)) = some ⟨0xB43423E7, 0x70CC836C, 0xE179F9BE, 0x6C705354, 0xBE88B895⟩ := by
  decide +kernel
theorem test_read_3 : answer (exec (.read 3) abcFinal) = some (some 0x0F7, .finalized) := by decide
theorem test_read_active_errSeq : answer (exec (.read 0) abcState) = some (some 0x200, .faulted) := by decide
theorem test_reserved_errEnc : answer (step (faultedState [.token 0x2FF])) = some (some 0x100, .faulted) := by decide
/-- 70_reset_and_hazards.md R210: no response. -/
theorem test_reset_in_command : answer (step (faultedState [.tokenThenReset 0x200])) = some (none, .active) := by decide

/-! ### Scripts (30_encoding.md R68, R69; program P1 of 95_test_vectors.md section 7) -/

theorem test_script_tokens :
    (parseScript "HASH \"\" ; the empty message".toList).map scriptTokens =
      some ([0x000, 0x200, 0x300, 0x301, 0x302, 0x303, 0x304, 0x305, 0x306, 0x307, 0x308, 0x309, 0x30A, 0x30B] ++
        [0x30C, 0x30D, 0x30E, 0x30F, 0x310, 0x311, 0x312, 0x313]) := by decide +kernel
theorem test_script_line :
    parseLine "READ 0 -> 0x08E".toList = some (some (.cmd (.read 0), some 0x08E)) := by decide +kernel
theorem test_script_read_20_refused : parseLine "READ 20".toList = none := by decide +kernel

/-! ### The memory keeps its form at reset -/

theorem test_reset_wf : State.reset.BUF.wf := by decide

/-! ### Witnesses: every statement with hypotheses, each clause at a boundary of its range -/

theorem witness_invariant_reset (evs : List HostEvent) : Invariant (given evs) :=
  ⟨by rw [given, State.setCmdChan_BUF]; decide, by rw [given, State.setCmdChan_J]; decide,
    fun _ a ha => absurd ha (by rw [fill, given, State.setCmdChan_LEN]; simp [State.reset])⟩

theorem witness_invariant_abc : Invariant abcState :=
  ⟨by decide, by decide, by decide⟩

/-- Clauses in order: INIT, 0x001 and 0x0FF, 0x100 and 0x1FF, FINAL, 0x201 and 0x2FF, 0x300 and 0x313, 0x314 and 0x3FF. -/
theorem witness_DecoderIsTotalAndEncoderItsInverse :
    (0x000 : Token).toNat = 0 ∧ 0x001 ≤ (0x001 : Token).toNat ∧ (0x0FF : Token).toNat ≤ 0x0FF ∧
    0x100 ≤ (0x100 : Token).toNat ∧ (0x1FF : Token).toNat ≤ 0x1FF ∧ (0x200 : Token).toNat = 0x200 ∧
    0x201 ≤ (0x201 : Token).toNat ∧ (0x2FF : Token).toNat ≤ 0x2FF ∧ 0x300 ≤ (0x300 : Token).toNat ∧
    (0x313 : Token).toNat ≤ 0x313 ∧ 0x314 ≤ (0x314 : Token).toNat ∧ 0x314 ≤ (0x3FF : Token).toNat ∧
    (19 : Byte).toNat ≤ 19 ∧ (Instr.read 19).wellFormed = true ∧ decode 0x313 = .instr (.read 19) := by decide

theorem witness_StepRunsTheDecodedCommand :
    (given [.token 0x161]).cmdChan = [.token 0x161] ∧ decode 0x161 = .instr (.absorb 0x61) ∧
    decodeTableWord 16 0x313 = some (.read 19) := by decide

theorem witness_StepWithoutAnEventHoldsTheState : State.reset.cmdChan = [] := by decide

theorem witness_EveryTokenIsAnsweredByTheAcceptanceTable :
    Invariant (given [.token 0x000]) ∧ (given [.token 0x000]).cmdChan = [.token 0x000] :=
  ⟨witness_invariant_reset _, by decide⟩

/-- One step for each way the phase changes, and each command with the response the clause names. -/
theorem witness_PhaseChangesOnlyAsListed :
    answer (step (faultedState [.reset])) = some (none, .active) ∧
    answer (step (faultedState [.token 0x000])) = some (some 0x000, .active) ∧
    answer (step (given [.token 0x300])) = some (some 0x200, .faulted) ∧
    answer (exec .init State.reset) = some (some 0x000, .active) ∧
    answer (exec (.absorb 0xFF) State.reset) = some (some 0x000, .active) ∧
    answer (exec (.read 19) abcFinal) = some (some (respToken .ok 0xFC), .finalized) ∧
    answer (exec (.read 20) abcFinal) = some (some (respToken (.err .errEnc) 0), .faulted) := by decide

theorem witness_PhaseChangesOnlyAsListed_final :
    answer (exec .final State.reset) = some (some 0x000, .finalized) := by decide +kernel

theorem witness_FaultedRejectsEverythingButInit :
    (faultedState [.token 0x3FF, .token 0x200]).PH = .faulted ∧ (∀ tok ∈ [(0x3FF : Token), 0x200], tok ≠ 0x000) ∧
    (faultedState [.token 0x3FF, .token 0x200]).cmdChan = [(0x3FF : Token), 0x200].map .token ++ [] := by decide

theorem witness_ResetEventAnswersNothingAndRestores :
    (faultedState [.tokenThenReset 0x200]).cmdChan = [.tokenThenReset 0x200] ∧
    (faultedState [.reset]).cmdChan = [.reset] := by decide

/-- Two engines in Initialized whose buffers differ. -/
theorem witness_ResetAndInitAreObservedTheSame :
    Initialized (given [.token 0x200]) ∧ Initialized ((given [.token 0x200]).setBUF [(0, 0x61)]) ∧
    (given [.token 0x200]).cmdChan = ((given [.token 0x200]).setBUF [(0, 0x61)]).cmdChan ∧
    (given [.token 0x200]).rspChan = ((given [.token 0x200]).setBUF [(0, 0x61)]).rspChan :=
  ⟨⟨by decide, by decide, by decide⟩, ⟨by decide, by decide, by decide⟩, by decide, by decide⟩

/-- LEN = 2^61 - 2, the highest at which a byte is stored. -/
theorem witness_AbsorbStoresItsByte :
    (partState 62 (BitVec.ofNat 61 (2 ^ 61 - 2))).PH = .active ∧
    (partState 62 (BitVec.ofNat 61 (2 ^ 61 - 2))).LEN.toNat + 1 < 2 ^ 61 ∧
    ((partState 62 (BitVec.ofNat 61 (2 ^ 61 - 2))).LEN.toNat + 1) % 64 ≠ 0 := by decide +kernel

theorem witness_AbsorbCompressesTheFullBlock :
    (partState 63 63).PH = .active ∧ (partState 63 63).LEN.toNat + 1 < 2 ^ 61 ∧
    ((partState 63 63).LEN.toNat + 1) % 64 = 0 ∧ (List.replicate 63 (0x61 : Byte)).length = 63 ∧
    ∀ a < 63, (partState 63 63).BUF.read a = (List.replicate 63 (0x61 : Byte))[a]? := by decide +kernel

theorem witness_AbsorbFrame :
    abcState.PH = .active ∧ abcState.LEN.toNat + 1 < 2 ^ 61 ∧ ∃ t, exec (.absorb 0xFF) abcState = .next t :=
  ⟨by decide, by decide, exists_of_isNext (by decide)⟩

/-- The same with the block full after it. -/
theorem witness_AbsorbFrame_full :
    (partState 63 63).PH = .active ∧ (partState 63 63).LEN.toNat + 1 < 2 ^ 61 ∧
    ((partState 63 63).LEN.toNat + 1) % 64 = 0 ∧ isNext (exec (.absorb 0xFF) (partState 63 63)) = true := by
  decide +kernel

theorem witness_ErrLenOnlyAtTheLengthBound :
    (partState 63 (BitVec.ofNat 61 (2 ^ 61 - 1))).PH = .active ∧
    (partState 63 (BitVec.ofNat 61 (2 ^ 61 - 1))).LEN.toNat = 2 ^ 61 - 1 ∧
    isNext (exec (.absorb 0) (partState 63 (BitVec.ofNat 61 (2 ^ 61 - 1)))) = true := by decide +kernel

theorem witness_ErrLenOnlyAtTheLengthBound_invariant :
    Invariant (partState 63 (BitVec.ofNat 61 (2 ^ 61 - 1))) :=
  ⟨by decide +kernel, by decide +kernel, by decide +kernel⟩

/-- Fills 0 and 55. -/
theorem witness_FinalMakesOneBlock :
    State.reset.PH = .active ∧ State.reset.LEN.toNat % 64 ≤ 55 ∧
    ([] : List Byte).length = State.reset.LEN.toNat % 64 ∧
    (partState 55 55).PH = .active ∧ (partState 55 55).LEN.toNat % 64 ≤ 55 ∧
    (List.replicate 55 (0x61 : Byte)).length = (partState 55 55).LEN.toNat % 64 ∧
    ∀ a < (List.replicate 55 (0x61 : Byte)).length,
      (partState 55 55).BUF.read a = (List.replicate 55 (0x61 : Byte))[a]? := by decide +kernel

/-- Fill 56. -/
theorem witness_FinalMakesTwoBlocks :
    (partState 56 56).PH = .active ∧ 56 ≤ (partState 56 56).LEN.toNat % 64 ∧
    (List.replicate 56 (0x61 : Byte)).length = (partState 56 56).LEN.toNat % 64 ∧
    ∀ a < (List.replicate 56 (0x61 : Byte)).length,
      (partState 56 56).BUF.read a = (List.replicate 56 (0x61 : Byte))[a]? := by decide +kernel

/-- k = 20, k = 19 in ACTIVE, k = 19 in FINALIZED. -/
theorem witness_ReadReturnsADigestByte :
    20 ≤ (20 : Byte).toNat ∧ (19 : Byte).toNat < 20 ∧ abcState.PH ≠ .finalized ∧ abcFinal.PH = .finalized := by decide

/-- A READ in ACTIVE; and two engines in FAULTED that differ in H and LEN. -/
theorem witness_RejectHasNoOtherObservableEffect :
    (∃ t, exec (.read 0) abcState = .next t ∧ t.PH = .faulted) ∧
    (faultedState [.token 0x300]).PH = .faulted ∧
    (((faultedState [.token 0x300]).setH ⟨0, 0, 0, 0, 0⟩).setLEN 63).PH = .faulted ∧
    (faultedState [.token 0x300]).cmdChan =
      (((faultedState [.token 0x300]).setH ⟨0, 0, 0, 0, 0⟩).setLEN 63).cmdChan ∧
    (faultedState [.token 0x300]).rspChan =
      (((faultedState [.token 0x300]).setH ⟨0, 0, 0, 0, 0⟩).setLEN 63).rspChan :=
  ⟨⟨abcState.raise .errSeq, rfl, by decide⟩, by decide, by decide, by decide, by decide⟩

/-- The amounts 0 and 31, the bit 31. -/
theorem witness_RotationMovesEveryBit : 0 ≤ 31 ∧ 31 ≤ 31 ∧ 1 ≤ 31 ∧ 31 < 32 := by decide

theorem witness_RoundMovesTheRegisters : abcWords.length = 16 ∧ 79 < 80 := by decide

/-- The left line first, then the right one. -/
theorem witness_EveryScheduleOfTheLinesAgrees :
    (List.replicate 80 Side.left ++ List.replicate 80 Side.right).count .left = 80 ∧
    (List.replicate 80 Side.left ++ List.replicate 80 Side.right).count .right = 80 := by decide +kernel

theorem witness_PaddingZerosHaveAClosedForm : 55 % 64 ≤ 55 ∧ 56 ≤ 56 % 64 := by decide

theorem witness_PaddedLengthIsWholeBlocks :
    (List.replicate 55 (0 : Byte)).length < 2 ^ 61 ∧ (List.replicate 55 (0 : Byte)).length % 64 ≤ 55 ∧
    (List.replicate 56 (0 : Byte)).length < 2 ^ 61 ∧ 56 ≤ (List.replicate 56 (0 : Byte)).length % 64 := by decide

theorem witness_PaddedMessageByteByByte :
    PAD [0xff] = some ([0xff, 0x80] ++ List.replicate 54 0 ++ [8, 0, 0, 0, 0, 0, 0, 0]) ∧ 0 < [(0xff : Byte)].length ∧
    1 < 55 ∧ 55 < ([(0xff : Byte), 0x80] ++ List.replicate 54 0 ++ [8, 0, 0, 0, 0, 0, 0, 0]).length - 8 := by
  decide +kernel

theorem witness_PackIsALittleEndianBijection :
    (List.replicate 64 (0xff : Byte)).length = 64 ∧ abcWords.length = 16 ∧
    ∀ a < 64, (partState 64 0).BUF.read a = (List.replicate 64 (0x61 : Byte))[a]? := by decide +kernel

theorem witness_LengthFieldIsTheLastTwoWords : ([0x61, 0x62, 0x63] : List Byte).length < 2 ^ 61 := by decide

theorem witness_SplitCutsWholeBlocksInOrder : (List.replicate 128 (0 : Byte)).length = 64 * 2 ∧ 1 < 2 := by decide +kernel

theorem witness_SerializerIsALittleEndianBijection :
    19 < 20 ∧ (List.replicate 20 (0xff : Byte)).length = 20 ∧ SER IV = SER IV := ⟨by decide, by decide, rfl⟩

theorem witness_DigestIsTwentyBytes : (DIGEST []).isSome = true := by decide +kernel

theorem witness_StepKeepsTheInvariant : Invariant (given [.token 0x161]) ∧ ∃ t, step (given [.token 0x161]) = .next t :=
  ⟨witness_invariant_reset _, exists_of_isNext (by decide)⟩

theorem witness_EveryStepCompletes :
    Invariant (given [.token 0x3FF]) ∧ (given [.token 0x3FF]).cmdChan = [.token 0x3FF] :=
  ⟨witness_invariant_reset _, by decide⟩

theorem witness_absorbed_abc : Absorbed [0x61, 0x62, 0x63] abcState :=
  ⟨by decide, by decide, by decide, by decide⟩

theorem witness_AbsorbExtendsTheAbsorbedMessage :
    Absorbed [0x61, 0x62, 0x63] abcState ∧ ([0x61, 0x62, 0x63] : List Byte).length + 1 < 2 ^ 61 :=
  ⟨witness_absorbed_abc, by decide⟩

theorem witness_FinalLeavesTheDigestOfTheMessage : Absorbed [0x61, 0x62, 0x63] abcState := witness_absorbed_abc

theorem witness_HashSequenceReturnsTheDigest :
    ([0x61, 0x62, 0x63] : List Byte).length < 2 ^ 61 ∧ ∃ u, exec .init abcState = .next u :=
  ⟨by decide, exists_of_isNext (by decide)⟩

theorem witness_BlocksHandedAreThePaddedBlocks :
    Initialized State.reset ∧ ([0x61, 0x62, 0x63] : List Byte).length < 2 ^ 61 :=
  ⟨⟨by decide, by decide, by decide⟩, by decide⟩

/-- An ABSORB that compresses, a FINAL, and a rejected READ. -/
theorem witness_WorkOfEachCommand :
    isNext (exec (.absorb 0) (partState 63 63)) = true ∧ (partState 63 63).PH = .active ∧
    (partState 63 63).LEN.toNat + 1 < 2 ^ 61 ∧ isNext (exec .final abcState) = true ∧ abcState.PH = .active ∧
    answer (exec (.read 0) abcState) = some (some 0x200, .faulted) := by
  decide +kernel

/-- Two engines that differ in the dead and hidden state: the bytes above the fill, the working registers, J. -/
theorem witness_HiddenStateIsNeverObserved :
    SameView abcState ((abcState.setBUF [(0, 0x61), (1, 0x62), (2, 0x63), (9, 0xff)]).setJ 80) :=
  ⟨by decide, by decide, by decide, fun _ => ⟨by decide, by decide, fun a ha => by
    have h : ∀ a < 3, abcState.BUF.read a = some ([0x61, 0x62, 0x63].getD a (0 : Byte)) ∧
        ((abcState.setBUF [(0, 0x61), (1, 0x62), (2, 0x63), (9, 0xff)]).setJ 80).BUF.read a =
          some ([0x61, 0x62, 0x63].getD a (0 : Byte)) := by decide
    exact ⟨_, h a (by rw [show fill abcState = 3 by decide] at ha; exact ha)⟩⟩, by decide⟩

theorem witness_AbsorbingTellsTheHostNothing :
    Invariant (given [.token 0x161]) ∧ (given [.token 0x161]).PH = .active ∧
    (given [.token 0x161]).LEN.toNat + ([0x61] : List Byte).length < 2 ^ 61 ∧
    (given [.token 0x161]).cmdChan = toEvents (absorbAll [0x61]) ++ [] :=
  ⟨witness_invariant_reset _, by decide, by decide, by decide⟩

theorem witness_EnginesAreIndependent :
    (∃ es', stepEngine 0 [State.reset, abcState] = .next es') ∧ (1 : Nat) ≠ 0 ∧
    ([State.reset, abcState] : System)[1]? = some abcState ∧ step abcState = .next abcState ∧
    ∃ es', stepEngine 1 [State.reset, abcState] = .next es' := by
  exact ⟨⟨[State.reset, abcState], rfl⟩, by decide, rfl, rfl, ⟨[State.reset, abcState], rfl⟩⟩

end Sys2Proof.Machine.Tests
end

/-!
The state family (10_state.md): what the buffer's live bytes are, what each accepted command does to a state that holds
them, the invariant, the simulation of engines with equal views, and the message absorbed.
-/

namespace Sys2Proof.Machine

/-! ### The live bytes of the buffer -/

/-- The live bytes of the buffer, those below the fill, are T (10_state.md R23, R24, R35). -/
structure LiveBytes (T : List Byte) (s : State) : Prop where
  length : T.length = fill s
  read : ∀ a < fill s, s.BUF.read a = T[a]?

/-- A live byte holds a value, that of T. -/
theorem LiveBytes.read_eq_some {T : List Byte} {s : State} (h : LiveBytes T s) {a : Nat} (ha : a < fill s) :
    s.BUF.read a = some (T[a]'(h.length ▸ ha)) := by
  rw [h.read a ha, List.getElem?_eq_getElem]

/-- At fill 0 no byte of the buffer is live. -/
theorem liveBytes_nil {s : State} (hf : fill s = 0) : LiveBytes [] s :=
  ⟨hf.symm, fun a ha => absurd ha (by omega)⟩

/-- The counter's wrap at 2^61 does not show in the fill: 64 divides 2^61. -/
theorem fill_stored (b : Byte) (s : State) : fill (stored b s) = (fill s + 1) % 64 := by
  have h1 : (1 : BitVec 61).toNat = 1 := rfl
  simp only [fill, stored_LEN, BitVec.toNat_add, h1]
  omega

theorem stored_read (b : Byte) (s : State) (a : Nat) :
    (stored b s).BUF.read a = if a = fill s then some b else s.BUF.read a := by
  rw [stored, State.setLEN_BUF, State.setBUF_BUF]
  split
  · next ha => rw [ha, Memory.read_write_same]
  · next ha => exact Memory.read_write_other _ _ ha

/-- After steps 1 and 2 of R88 the bytes up to the old fill are T and then b. -/
theorem LiveBytes.read_stored {T : List Byte} {s : State} (h : LiveBytes T s) (b : Byte) {a : Nat} (ha : a ≤ fill s) :
    (stored b s).BUF.read a = (T ++ [b])[a]? := by
  rw [stored_read]
  split
  · next hf => rw [hf, ← h.length, List.getElem?_concat_length]
  · next hf => rw [h.read a (by omega), List.getElem?_append_left (by rw [h.length]; omega)]

/-- A byte that does not fill the block joins the live bytes. -/
theorem LiveBytes.store {T : List Byte} {s : State} (h : LiveBytes T s) (b : Byte) (hf : fill s < 63) :
    LiveBytes (T ++ [b]) (stored b s) := by
  have hfill : fill (stored b s) = fill s + 1 := by rw [fill_stored]; omega
  exact ⟨by simp [h.length, hfill], fun a ha => h.read_stored b (by omega)⟩

/-! ### The accepted commands on live bytes -/

/-- An accepted ABSORB that does not fill the block. -/
theorem exec_absorb_room {s : State} (b : Byte) (hp : s.PH = .active) (hl : s.LEN.toNat + 1 < Config.lenMax)
    (hf : fill s < 63) : exec (.absorb b) s = .next ((stored b s).respond .ok 0) := by
  rw [exec_absorb_active hp hl, absorbBody_eq, if_neg (by rw [fill_stored]; omega), finish]

/-- The accepted ABSORB that fills the block compresses the live bytes and then its own. -/
theorem exec_absorb_block {T : List Byte} {s : State} (b : Byte) (hp : s.PH = .active)
    (hl : s.LEN.toNat + 1 < Config.lenMax) (hf : fill s = 63) (hT : LiveBytes T s) :
    exec (.absorb b) s = .next ((compressWith (PACK (T ++ [b])) (stored b s)).respond .ok 0) := by
  have hc : compressBuf (stored b s) = .ok (compressWith (PACK (T ++ [b])) (stored b s)) :=
    compressBuf_ok (by simp [hT.length, hf]) fun a ha => hT.read_stored b (by omega)
  rw [exec_absorb_active hp hl, absorbBody_eq, if_pos (by rw [fill_stored, hf]), hc, finish]

/-- FINAL's body with a fill of at most 55: the one block it compresses (R89). -/
theorem finalBody_one {T : List Byte} {s : State} (hT : LiveBytes T s) (hf : fill s < 56) :
    finalBody s = .ok ((compressWith
      (PACK (T ++ [Config.padByte] ++ List.replicate (55 - T.length) 0 ++ lengthField s.LEN.toNat))
      (lengthened (padded s))).setPH .finalized) := by
  have hlen := hT.length
  have hQ : (T ++ [Config.padByte] ++ List.replicate (55 - T.length) 0).length = 56 := by simp; omega
  have hread : ∀ a < 56, (padded s).BUF.read a = (T ++ [Config.padByte] ++ List.replicate (55 - T.length) 0)[a]? := by
    intro a ha
    have hz : List.replicate (63 - fill s) (0 : Byte) = List.replicate (55 - T.length) 0 ++ List.replicate 8 0 := by
      rw [← List.replicate_add, hlen]; congr 1; omega
    rw [padded_read hlen hT.read (by omega), hz, ← List.append_assoc, List.getElem?_append_left (by omega)]
  have hc := compressBuf_ok (by rw [List.length_append, hQ, length_lengthField]) fun a ha => lengthened_read hQ hread ha
  rw [finalBody_short hf, hc, Except.map, padded_LEN]

/-- FINAL's body with a fill of 56 or more: the two blocks it compresses (R89). -/
theorem finalBody_two {T : List Byte} {s : State} (hT : LiveBytes T s) (hf : 56 ≤ fill s) :
    finalBody s = .ok ((compressWith (PACK (List.replicate 56 0 ++ lengthField s.LEN.toNat))
      (lengthened (cleared (compressWith (PACK (T ++ [Config.padByte] ++ List.replicate (63 - T.length) 0))
        (padded s))))).setPH .finalized) := by
  have hlen := hT.length
  have hlt := fill_lt s
  have hfst : compressBuf (padded s) =
      .ok (compressWith (PACK (T ++ [Config.padByte] ++ List.replicate (63 - T.length) 0)) (padded s)) :=
    compressBuf_ok (by simp; omega) fun a ha => by rw [padded_read hlen hT.read ha, hlen]
  have hsnd (u : State) : compressBuf (lengthened (cleared u)) =
      .ok (compressWith (PACK (List.replicate 56 0 ++ lengthField u.LEN.toNat)) (lengthened (cleared u))) :=
    compressBuf_ok (by simp) fun a ha => by
      rw [lengthened_read (List.length_replicate ..) (fun a ha => cleared_read u ha) ha, cleared_LEN]
  rw [finalBody_long hf, hfst, Except.bind, hsnd, Except.map, compressWith_LEN, padded_LEN]

/-! ### The state after reset -/

/-- Settles O9: every field is a literal of `State.reset`. -/
theorem resetLeavesTheSpecifiedValues : Obligations.ResetLeavesTheSpecifiedValues :=
  ⟨rfl, rfl, rfl, fun _ => rfl⟩

/-- Settles O10: every field is a literal of `State.reset`. -/
theorem resetRegistersAndChannelsAreAModelChoice : Obligations.ResetRegistersAndChannelsAreAModelChoice :=
  ⟨rfl, rfl, rfl, rfl, rfl⟩

/-! ### What keeps the invariant -/

theorem Invariant.setCmdChan {s : State} (h : Invariant s) (evs : List HostEvent) : Invariant (s.setCmdChan evs) :=
  ⟨h.wf, h.rounds, h.filled⟩

theorem Invariant.respond {s : State} (h : Invariant s) (st : Status) (d : Byte) : Invariant (s.respond st d) :=
  ⟨h.wf, h.rounds, h.filled⟩

/-- The filling clause is empty outside ACTIVE. -/
theorem Invariant.of_not_active {s : State} (hw : s.BUF.wf) (hJ : s.J ≤ 80) (hp : s.PH ≠ .active) : Invariant s :=
  ⟨hw, hJ, fun ha => absurd ha hp⟩

/-- The filling clause is empty at fill 0. -/
theorem Invariant.of_fill_zero {s : State} (hw : s.BUF.wf) (hJ : s.J ≤ 80) (hf : fill s = 0) : Invariant s :=
  ⟨hw, hJ, fun _ a ha => absurd ha (by omega)⟩

theorem Invariant.raise {s : State} (h : Invariant s) (e : Reject) : Invariant (s.raise e) :=
  .of_not_active h.wf h.rounds (by simp)

theorem Invariant.begin {s : State} (h : Invariant s) : Invariant s.begin :=
  .of_fill_zero h.wf h.rounds (by simp [fill])

theorem invariant_hwReset (s : State) : Invariant s.hwReset :=
  .of_fill_zero (by simp [Memory.wf]) (by simp) (by simp [fill])

/-- Storing a byte at the fill raises the fill over it, or back to 0. -/
theorem Invariant.stored {s : State} (h : Invariant s) (hp : s.PH = .active) (b : Byte) : Invariant (stored b s) := by
  refine ⟨wf_stored h.wf, h.rounds, fun _ a ha => ?_⟩
  rw [stored_read]
  split
  · rfl
  · next hne => exact h.filled hp a (by rw [fill_stored] at ha; omega)

theorem Invariant.compressWith {s : State} (h : Invariant s) (X : List Word) : Invariant (compressWith X s) :=
  ⟨by rw [compressWith_BUF]; exact h.wf, by simp, by simpa using h.filled⟩

/-- An accepted FINAL keeps the invariant. -/
theorem invariant_finalBody {s u : State} (h : Invariant s) (hu : finalBody s = .ok u) : Invariant u := by
  obtain ⟨X, v, rfl, -, -, -, hwf⟩ := finalBody_ok hu
  refine .of_not_active ?_ (by simp) (by simp)
  rw [State.setPH_BUF, compressWith_BUF]
  exact hwf h.wf

/-- Every command that answers a next state keeps the invariant. -/
theorem exec_keeps_invariant {i : Instr} {s t : State} (h : Invariant s) (he : exec i s = .next t) : Invariant t := by
  obtain ⟨e, ht, -⟩ | ⟨-, ht⟩ | ⟨b, u, -, hp, -, ht, hu⟩ | ⟨u, -, -, hu, ht⟩ | ⟨k, -, -, -, ht⟩ := exec_next he
  · exact ht ▸ h.raise e
  · exact ht ▸ h.begin.respond _ _
  · obtain ⟨-, hu⟩ | ⟨-, X, -, hu⟩ := hu
    · rw [ht, hu]; exact (h.stored hp b).respond _ _
    · rw [ht, hu]; exact ((h.stored hp b).compressWith X).respond _ _
  · exact ht ▸ (invariant_finalBody h hu).respond _ _
  · exact ht ▸ h.respond _ _

/-- Settles O40: the reset event leaves the reset state as it is. -/
theorem invariantHoldsAfterReset : Obligations.InvariantHoldsAfterReset := invariant_hwReset State.reset

/-- Settles O41, by the cases of a step. -/
theorem stepKeepsTheInvariant : Obligations.StepKeepsTheInvariant := by
  intro s t h hstep
  obtain ⟨-, rfl⟩ | ⟨_, rest, -, -, rfl⟩ | ⟨_, rest, _, -, -, rfl⟩ | ⟨_, rest, i, -, -, he⟩ := step_next hstep
  · exact h
  · exact invariant_hwReset _
  · exact (h.setCmdChan rest).raise _
  · exact exec_keeps_invariant (h.setCmdChan rest) he

/-! ### Engines with equal views -/

/-- Equal views in ACTIVE: equal live bytes. -/
theorem SameView.exists_liveBytes {s t : State} (h : SameView s t) (hp : s.PH = .active) :
    ∃ T, LiveBytes T s ∧ LiveBytes T t := by
  obtain ⟨-, hLEN, hbytes⟩ := h.active hp
  have hfill : fill t = fill s := by rw [fill, fill, hLEN]
  obtain ⟨T, hlen, hread⟩ := bytes_of_filled (m := s.BUF) (n := fill s) fun a ha => by
    obtain ⟨b, hb, -⟩ := hbytes a ha
    rw [hb]; rfl
  refine ⟨T, ⟨hlen, hread⟩, ⟨hlen.trans hfill.symm, fun a ha => ?_⟩⟩
  obtain ⟨b, hs, ht⟩ := hbytes a (hfill ▸ ha)
  rw [ht, ← hs, hread a (hfill ▸ ha)]

/-- Engines in ACTIVE with equal H, LEN, live bytes and channels have equal views. -/
theorem SameView.of_active {T : List Byte} {s t : State} (hcmd : s.cmdChan = t.cmdChan)
    (hrsp : s.rspChan = t.rspChan) (hs : s.PH = .active) (ht : t.PH = .active) (hH : s.H = t.H) (hLEN : s.LEN = t.LEN)
    (hTs : LiveBytes T s) (hTt : LiveBytes T t) : SameView s t := by
  have hfill : fill s = fill t := by rw [fill, fill, hLEN]
  exact ⟨hcmd, hrsp, hs.trans ht.symm,
    fun _ => ⟨hH, hLEN, fun a ha => ⟨_, hTs.read_eq_some ha, hTt.read_eq_some (hfill ▸ ha)⟩⟩,
    fun hf => (nomatch hs.symm.trans hf)⟩

theorem SameView.of_finalized {s t : State} (hcmd : s.cmdChan = t.cmdChan) (hrsp : s.rspChan = t.rspChan)
    (hs : s.PH = .finalized) (ht : t.PH = .finalized) (hH : s.H = t.H) : SameView s t :=
  ⟨hcmd, hrsp, hs.trans ht.symm, fun ha => (nomatch hs.symm.trans ha), fun _ => hH⟩

/-- In FAULTED nothing but the channels is seen (60_exceptions.md R186). -/
theorem SameView.of_faulted {s t : State} (hcmd : s.cmdChan = t.cmdChan) (hrsp : s.rspChan = t.rspChan)
    (hs : s.PH = .faulted) (ht : t.PH = .faulted) : SameView s t :=
  ⟨hcmd, hrsp, hs.trans ht.symm, fun ha => (nomatch hs.symm.trans ha), fun hf => (nomatch hs.symm.trans hf)⟩

theorem Initialized.fill_eq_zero {s : State} (h : Initialized s) : fill s = 0 := by simp [fill, h.LEN]

/-- Two Initialized engines with equal channels have equal views (70_reset_and_hazards.md R212). -/
theorem SameView.of_initialized {s t : State} (hcmd : s.cmdChan = t.cmdChan) (hrsp : s.rspChan = t.rspChan)
    (hs : Initialized s) (ht : Initialized t) : SameView s t :=
  .of_active hcmd hrsp hs.PH ht.PH (hs.H.trans ht.H.symm) (hs.LEN.trans ht.LEN.symm) (liveBytes_nil hs.fill_eq_zero)
    (liveBytes_nil ht.fill_eq_zero)

theorem initialized_hwReset (s : State) : Initialized s.hwReset := ⟨rfl, rfl, rfl⟩

theorem initialized_init (s : State) : Initialized (s.begin.respond .ok 0) := ⟨rfl, rfl, rfl⟩

section
variable {s t : State} (h : SameView s t)
include h

theorem SameView.setCmdChan (evs : List HostEvent) : SameView (s.setCmdChan evs) (t.setCmdChan evs) :=
  ⟨rfl, h.rsp, h.phase, h.active, h.finalized⟩

theorem SameView.respond (st : Status) (d : Byte) : SameView (s.respond st d) (t.respond st d) :=
  ⟨h.cmd, by simp [h.rsp], h.phase, h.active, h.finalized⟩

theorem SameView.raise (e : Reject) : SameView (s.raise e) (t.raise e) :=
  .of_faulted h.cmd (by simp [h.rsp]) rfl rfl

theorem SameView.hwReset : SameView s.hwReset t.hwReset :=
  .of_initialized h.cmd h.rsp (initialized_hwReset s) (initialized_hwReset t)

/-- An accepted ABSORB keeps views equal: the byte joins the live bytes, or the block they make is compressed. -/
theorem exec_absorb_sameView (b : Byte) (hp : s.PH = .active) (hl : s.LEN.toNat + 1 < Config.lenMax) :
    ∃ s' t', exec (.absorb b) s = .next s' ∧ exec (.absorb b) t = .next t' ∧ SameView s' t' := by
  obtain ⟨hH, hLEN, -⟩ := h.active hp
  obtain ⟨T, hTs, hTt⟩ := h.exists_liveBytes hp
  have hp' : t.PH = .active := h.phase ▸ hp
  have hl' : t.LEN.toNat + 1 < Config.lenMax := hLEN ▸ hl
  have hfill : fill t = fill s := by rw [fill, fill, hLEN]
  by_cases hf : fill s < 63
  · refine ⟨_, _, exec_absorb_room b hp hl hf, exec_absorb_room b hp' hl' (hfill ▸ hf), ?_⟩
    exact (SameView.of_active (s := stored b s) (t := stored b t) h.cmd h.rsp hp hp' hH (by simp [hLEN])
      (hTs.store b hf) (hTt.store b (hfill ▸ hf))).respond _ _
  · have hf : fill s = 63 := by have := fill_lt s; omega
    refine ⟨_, _, exec_absorb_block b hp hl hf hTs, exec_absorb_block b hp' hl' (hfill.trans hf) hTt, ?_⟩
    have hs0 : fill (compressWith (PACK (T ++ [b])) (stored b s)) = 0 := by simp [fill_stored, hf]
    have ht0 : fill (compressWith (PACK (T ++ [b])) (stored b t)) = 0 := by simp [fill_stored, hfill, hf]
    exact (SameView.of_active (by simp [h.cmd]) (by simp [h.rsp]) (by simp [hp]) (by simp [hp']) (by simp [hH])
      (by simp [hLEN]) (liveBytes_nil hs0) (liveBytes_nil ht0)).respond _ _

/-- An accepted FINAL keeps views equal: the padding and the length are made of the live bytes and LEN. -/
theorem exec_final_sameView (hp : s.PH = .active) :
    ∃ s' t', exec .final s = .next s' ∧ exec .final t = .next t' ∧ SameView s' t' := by
  obtain ⟨hH, hLEN, -⟩ := h.active hp
  obtain ⟨T, hTs, hTt⟩ := h.exists_liveBytes hp
  have hfill : fill t = fill s := by rw [fill, fill, hLEN]
  rw [exec_final_active hp, exec_final_active (h.phase ▸ hp)]
  by_cases hf : fill s < 56
  · rw [finalBody_one hTs hf, finalBody_one hTt (hfill ▸ hf)]
    exact ⟨_, _, rfl, rfl, (SameView.of_finalized (by simp [h.cmd]) (by simp [h.rsp]) (by simp) (by simp)
      (by simp [hH, hLEN])).respond _ _⟩
  · rw [finalBody_two hTs (by omega), finalBody_two hTt (by omega)]
    exact ⟨_, _, rfl, rfl, (SameView.of_finalized (by simp [h.cmd]) (by simp [h.rsp]) (by simp) (by simp)
      (by simp [hH, hLEN])).respond _ _⟩

/-- One command answers from engines with equal views, with equal views: the cases of R150. -/
theorem exec_sameView (i : Instr) : ∃ s' t', exec i s = .next s' ∧ exec i t = .next t' ∧ SameView s' t' := by
  cases hw : i.wellFormed with
  | false =>
    cases i with
    | read k =>
      rw [exec, exec, execRead, execRead, checkEnc_reserved hw, checkEnc_reserved hw]
      exact ⟨_, _, rfl, rfl, h.raise _⟩
    | _ => simp [Instr.wellFormed] at hw
  | true =>
    cases ha : phaseAccepts i s.PH with
    | false => exact ⟨_, _, exec_wrong_phase hw ha, exec_wrong_phase hw (h.phase ▸ ha), h.raise _⟩
    | true =>
      cases i with
      | init =>
        exact ⟨_, _, rfl, rfl,
          .of_initialized h.cmd (by simp [h.rsp]) (initialized_init s) (initialized_init t)⟩
      | absorb b =>
        have hp : s.PH = .active := by simpa [phaseAccepts] using ha
        obtain ⟨-, hLEN, -⟩ := h.active hp
        by_cases hl : s.LEN.toNat + 1 < Config.lenMax
        · exact exec_absorb_sameView h b hp hl
        · have hfull : s.LEN.toNat + 1 = Config.lenMax := Nat.le_antisymm s.LEN.isLt (Nat.le_of_not_lt hl)
          exact ⟨_, _, exec_absorb_full hp hfull, exec_absorb_full (h.phase ▸ hp) (hLEN ▸ hfull), h.raise _⟩
      | final => exact exec_final_sameView h (by simpa [phaseAccepts] using ha)
      | read k =>
        have hp : s.PH = .finalized := by simpa [phaseAccepts] using ha
        have hk : readOperand k t = readOperand k s := by rw [readOperand, readOperand, h.finalized hp]
        rw [exec, exec, execRead, execRead, checkEnc_legal hw, checkEnc_legal hw, checkPhase_accepts ha,
          checkPhase_accepts (h.phase ▸ ha), hk]
        exact ⟨_, _, rfl, rfl, h.respond _ _⟩

theorem serve_sameView (e : HostEvent) : ∃ s' t', serve e s = .next s' ∧ serve e t = .next t' ∧ SameView s' t' := by
  cases e with
  | reset => exact ⟨_, _, rfl, rfl, h.hwReset⟩
  | tokenThenReset tok => exact ⟨_, _, rfl, rfl, h.hwReset⟩
  | token tok =>
    simp only [serve, execToken]
    cases decode tok with
    | instr i => exact exec_sameView h i
    | reserved why => exact ⟨_, _, rfl, rfl, h.raise _⟩

/-- The simulation: engines with equal views both step, to equal views. -/
theorem step_sameView : ∃ s' t', step s = .next s' ∧ step t = .next t' ∧ SameView s' t' := by
  cases hs : s.cmdChan with
  | nil => exact ⟨s, t, by simp [step, hs], by simp [step, ← h.cmd, hs], h⟩
  | cons e rest => simpa [step, ← h.cmd, hs] using serve_sameView (h.setCmdChan rest) e

end

/-- The simulation along a run. -/
theorem run_sameView (n : Nat) : ∀ {s t : State}, SameView s t →
    ∃ s' t', Host.Core.run core n s = .next s' ∧ Host.Core.run core n t = .next t' ∧ SameView s' t' := by
  induction n with
  | zero => exact fun {s t} h => ⟨s, t, rfl, rfl, h⟩
  | succ n ih =>
    intro s t h
    obtain ⟨s', t', hs, ht, h'⟩ := step_sameView h
    rw [run_next hs, run_next ht]
    exact ih h'

/-- Settles O49: the simulation through all events of the channel, which both engines share. -/
theorem hiddenStateIsNeverObserved : Obligations.HiddenStateIsNeverObserved := by
  intro s t h
  rw [runChannel, runChannel, ← h.cmd]
  exact run_sameView _ h

/-! ### No fault from reset -/

/-- A state of the invariant has its own view: what a later command can show all holds a value. -/
theorem Invariant.sameView_self {s : State} (h : Invariant s) : SameView s s :=
  ⟨rfl, rfl, rfl, fun hp => ⟨rfl, rfl, fun a ha => by simpa [Option.isSome_iff_exists] using h.filled hp a ha⟩,
    fun _ => rfl⟩

/-- Progress: the simulation of a state of the invariant with itself. -/
theorem step_completes {s : State} (h : Invariant s) : ∃ t, step s = .next t := by
  obtain ⟨t, -, ht, -⟩ := step_sameView h.sameView_self
  exact ⟨t, ht⟩

/-- A command leaves the command channel alone and appends one response. -/
theorem exec_responds {i : Instr} {s t : State} (he : exec i s = .next t) :
    t.cmdChan = s.cmdChan ∧ ∃ r, t.rspChan = s.rspChan ++ [r] := by
  obtain ⟨e, ht, -⟩ | ⟨-, ht⟩ | ⟨b, u, -, -, -, ht, hu⟩ | ⟨u, -, -, hu, ht⟩ | ⟨k, -, -, -, ht⟩ := exec_next he
  · simp [ht]
  · simp [ht]
  · obtain ⟨-, hu⟩ | ⟨-, X, -, hu⟩ := hu <;> simp [ht, hu]
  · obtain ⟨X, v, hX, -, hcmd, hrsp, -⟩ := finalBody_ok hu
    simp [ht, hX, hcmd, hrsp]
  · simp [ht]

/-- A token taken off the channel is answered by one response (30_encoding.md R60). -/
theorem step_token_responds {s t : State} {tok : Token} {rest : List HostEvent} (hs : s.cmdChan = .token tok :: rest)
    (h : step s = .next t) : t.cmdChan = rest ∧ ∃ r, t.rspChan = s.rspChan ++ [r] := by
  simp only [step, hs, serve, execToken] at h
  split at h
  · simpa using exec_responds h
  · simp [← Host.Outcome.next.inj h]

/-- A reset taken off the channel is answered by none (70_reset_and_hazards.md R210). -/
theorem step_reset {s : State} {e : HostEvent} {rest : List HostEvent} (hs : s.cmdChan = e :: rest)
    (he : e.answered = false) : step s = .next (s.setCmdChan rest).hwReset := by
  cases e with
  | token tok => cases he
  | reset => simp only [step, hs, serve]
  | tokenThenReset tok => simp only [step, hs, serve]

/-- A step takes one event off and answers it as R60 and R210 say. -/
theorem step_counts_response {s t : State} {e : HostEvent} {rest : List HostEvent} (hs : s.cmdChan = e :: rest)
    (h : step s = .next t) : t.cmdChan = rest ∧
      t.rspChan.length = s.rspChan.length + ([e].filter HostEvent.answered).length := by
  cases he : e.answered with
  | true =>
    cases e with
    | token tok =>
      obtain ⟨hcmd, r, hrsp⟩ := step_token_responds hs h
      simp [hcmd, hrsp, he]
    | _ => cases he
  | false =>
    rw [step_reset hs he] at h
    simp [← Host.Outcome.next.inj h, he]

/-- From a state of the invariant every list of events runs through. -/
theorem run_completes (evs : List HostEvent) : ∀ {s : State}, Invariant s → s.cmdChan = evs →
    ∃ t, Host.Core.run core evs.length s = .next t ∧ t.cmdChan = [] ∧
      t.rspChan.length = s.rspChan.length + (evs.filter HostEvent.answered).length := by
  induction evs with
  | nil => exact fun {s} _ hs => ⟨s, rfl, hs, rfl⟩
  | cons e rest ih =>
    intro s h hs
    obtain ⟨u, hu⟩ := step_completes h
    obtain ⟨hcmd, hrsp⟩ := step_counts_response hs hu
    obtain ⟨t, ht, htcmd, htrsp⟩ := ih (stepKeepsTheInvariant s u h hu) hcmd
    refine ⟨t, (run_next hu).trans ht, htcmd, ?_⟩
    rw [htrsp, hrsp, Nat.add_assoc, ← List.length_append, ← List.filter_append, List.singleton_append]

/-- Settles O43, by induction over the events from the invariant at reset. -/
theorem noEventSequenceReachesAFault : Obligations.NoEventSequenceReachesAFault := by
  intro evs
  obtain ⟨t, ht, hcmd, hrsp⟩ := run_completes evs (invariantHoldsAfterReset.setCmdChan evs) rfl
  exact ⟨t, ht, hcmd, by simpa [State.reset] using hrsp⟩

/-! ### The message absorbed -/

/-- In Initialized the empty message is absorbed (10_state.md R33, R35). -/
theorem Initialized.absorbed_nil {s : State} (h : Initialized s) : Absorbed [] s :=
  ⟨h.PH, by simp [h.LEN], by simp [h.H], fun a ha => absurd ha (by simp)⟩

section
variable {M : List Byte} {s : State} (h : Absorbed M s)
include h

theorem Absorbed.fill_eq : fill s = M.length % 64 := by rw [fill, h.len]

/-- The live bytes are those of M after its whole blocks. -/
theorem Absorbed.liveBytes : LiveBytes (M.drop (64 * (M.length / 64))) s :=
  ⟨by rw [List.length_drop, h.fill_eq]; omega, fun a ha => by rw [List.getElem?_drop, h.tail a (h.fill_eq ▸ ha)]⟩

/-- A byte that does not fill the block. -/
theorem Absorbed.store (b : Byte) (hl : s.LEN.toNat + 1 < Config.lenMax) (hf : fill s < 63) :
    Absorbed (M ++ [b]) (stored b s) := by
  have hm : M.length % 64 < 63 := h.fill_eq ▸ hf
  have hdiv : (M ++ [b]).length / 64 = M.length / 64 := by rw [List.length_append, List.length_singleton]; omega
  refine ⟨h.active, ?_, ?_, fun a ha => ?_⟩
  · rw [stored_LEN, toNat_succ_LEN hl, h.len, List.length_append, List.length_singleton]
  · rw [stored_H, h.chain, hdiv, List.take_append_of_le_length (by omega)]
  · rw [List.length_append, List.length_singleton] at ha
    rw [hdiv, h.liveBytes.read_stored b (by rw [h.fill_eq]; omega), ← List.getElem?_drop,
      List.drop_append_of_le_length (by omega)]

/-- The byte that fills the block: one whole block more in the chain, none left in the buffer. -/
theorem Absorbed.compress (b : Byte) (hl : s.LEN.toNat + 1 < Config.lenMax) (hf : fill s = 63) :
    Absorbed (M ++ [b]) (compressWith (PACK (M.drop (64 * (M.length / 64)) ++ [b])) (stored b s)) := by
  have hm : M.length % 64 = 63 := h.fill_eq ▸ hf
  have hlen : (M ++ [b]).length = M.length + 1 := by simp
  have hall : (M ++ [b]).take (64 * ((M ++ [b]).length / 64)) =
      M.take (64 * (M.length / 64)) ++ (M.drop (64 * (M.length / 64)) ++ [b]) := by
    rw [List.take_of_length_le (by omega), ← List.append_assoc, List.take_append_drop]
  refine ⟨?_, ?_, ?_, fun a ha => absurd ha (by omega)⟩
  · rw [compressWith_PH, stored_PH, h.active]
  · rw [compressWith_LEN, stored_LEN, toNat_succ_LEN hl, h.len, hlen]
  · rw [compressWith_H, stored_H, hall, SPLIT_append (by rw [List.length_take]; omega)
      (by rw [List.length_append, List.length_drop, List.length_singleton]; omega), CHAIN_concat, foldBlock, h.chain]

theorem Absorbed.respond (st : Status) (d : Byte) : Absorbed M (s.respond st d) :=
  ⟨h.active, h.len, h.chain, h.tail⟩

/-- An accepted ABSORB adds its byte to the message (43_commands.md R152). -/
theorem exec_absorb_absorbed (b : Byte) (hM : M.length + 1 < Config.lenMax) :
    ∃ t, exec (.absorb b) s = .next t ∧ Absorbed (M ++ [b]) t ∧ t.cmdChan = s.cmdChan ∧
      t.rspChan = s.rspChan ++ [0x000] := by
  have hl : s.LEN.toNat + 1 < Config.lenMax := by rw [h.len]; exact hM
  by_cases hf : fill s < 63
  · exact ⟨_, exec_absorb_room b h.active hl hf, (h.store b hl hf).respond _ _, by simp, by simp⟩
  · have hf : fill s = 63 := by have := fill_lt s; omega
    exact ⟨_, exec_absorb_block b h.active hl hf h.liveBytes, (h.compress b hl hf).respond _ _, by simp, by simp⟩

end

/-- Settles O44: INIT and reset enter Initialized, where no byte is absorbed; an accepted ABSORB extends the message. -/
theorem absorbExtendsTheAbsorbedMessage : Obligations.AbsorbExtendsTheAbsorbedMessage :=
  ⟨fun s => ⟨_, rfl, (initialized_init s).absorbed_nil⟩, fun s => (initialized_hwReset s).absorbed_nil,
    fun _ b _ h hM => exec_absorb_absorbed h b hM⟩

end Sys2Proof.Machine

/-!
The memory family (20_memory.md): a step runs the decoded command; PACK and its inverse, read byte by byte; the length
field as the last two words of the padded message.
-/

namespace Sys2Proof.Machine

/-! ### A token, a table word and the step that takes them -/

/-- A step takes the oldest token off the channel and runs its command (R53). -/
theorem step_of_token {s : State} {tok : Token} {rest : List HostEvent} {i : Instr}
    (hs : s.cmdChan = .token tok :: rest) (hd : decode tok = .instr i) : step s = exec i (s.setCmdChan rest) := by
  simp only [step, hs, serve, execToken, hd]

/-- A table word decodes to a command when it is a token that does. -/
theorem decodeTableWord_eq_some {nbits w : Nat} {i : Instr} (h : decodeTableWord nbits w = some i) :
    tableValue nbits w < 1024 ∧ decode (BitVec.ofNat 10 (tableValue nbits w)) = .instr i := by
  unfold decodeTableWord at h
  split at h
  · next hlt =>
    split at h
    · next hd => exact ⟨hlt, Option.some.inj h ▸ hd⟩
    · cases h
  · cases h

/-- A table word that is a token is put at the head of the channel. -/
theorem withFetchWord_token {nbits w : Nat} (h : tableValue nbits w < 1024) (s : State) :
    s.withFetchWord nbits w = s.setCmdChan (.token (BitVec.ofNat 10 (tableValue nbits w)) :: s.cmdChan) := if_pos h

/-- Settles O4: a presented table word is the oldest token of the channel, so the first clause gives the second. -/
theorem stepRunsTheDecodedCommand : Obligations.StepRunsTheDecodedCommand := by
  refine ⟨fun _ _ _ _ hs hd => step_of_token hs hd, fun s nbits w i h => ?_⟩
  obtain ⟨hlt, hd⟩ := decodeTableWord_eq_some h
  rw [withFetchWord_token hlt, step_of_token (State.setCmdChan_cmdChan _ _) hd]
  rfl

/-! ### The bytes of a word -/

/-- A bit vector takes of a value what the width holds. -/
theorem ofNat_mod_two_pow (w v : Nat) : BitVec.ofNat w (v % 2 ^ w) = BitVec.ofNat w v :=
  BitVec.eq_of_toNat_eq (by rw [BitVec.toNat_ofNat, BitVec.toNat_ofNat, Nat.mod_mod])

theorem toNat_byteOf (v i : Nat) : (byteOf v i).toNat = v / 2 ^ (8 * i) % 256 := by simp [byteOf]

/-- The bytes from the fifth on are those of the value above its low word. -/
theorem byteOf_four_add (v i : Nat) : byteOf v (4 + i) = byteOf (v / 2 ^ 32) i := by
  rw [byteOf, byteOf, Nat.div_div_eq_div_mul, ← pow_add, Nat.mul_add]

/-- A word of four bytes does not wrap (R44). -/
theorem toNat_le32 (b0 b1 b2 b3 : Byte) :
    (le32 b0 b1 b2 b3).toNat = b0.toNat + 2 ^ 8 * b1.toNat + 2 ^ 16 * b2.toNat + 2 ^ 24 * b3.toNat := by
  have h0 := b0.isLt
  have h1 := b1.isLt
  have h2 := b2.isLt
  have h3 := b3.isLt
  rw [le32, BitVec.toNat_ofNat]
  omega

/-- The bytes of a word come back in little-endian order. -/
theorem byteOf_le32 (f : Nat → Byte) {i : Nat} (hi : i < 4) : byteOf (le32 (f 0) (f 1) (f 2) (f 3)).toNat i = f i := by
  have h0 := (f 0).isLt
  have h1 := (f 1).isLt
  have h2 := (f 2).isLt
  have h3 := (f 3).isLt
  apply BitVec.eq_of_toNat_eq
  rw [toNat_byteOf, toNat_le32]
  interval_cases i <;> omega

/-- The low four bytes of a value make its low word. -/
theorem le32_byteOf (v : Nat) : le32 (byteOf v 0) (byteOf v 1) (byteOf v 2) (byteOf v 3) = BitVec.ofNat 32 v := by
  apply BitVec.eq_of_toNat_eq
  simp only [toNat_le32, toNat_byteOf, BitVec.toNat_ofNat]
  omega

/-! ### PACK and its inverse -/

@[simp] theorem length_PACK (B : Block) : (PACK B).length = 16 := by simp [PACK]

theorem getElem?_PACK (B : Block) {t : Nat} (ht : t < 16) : (PACK B)[t]? = some (packWord B t) := by
  simp [PACK, ht]

/-- A word of a block by its four bytes. -/
theorem packWord_eq_le32 {B : Block} {t : Nat} {b0 b1 b2 b3 : Byte} (h0 : B[4 * t]? = some b0)
    (h1 : B[4 * t + 1]? = some b1) (h2 : B[4 * t + 2]? = some b2) (h3 : B[4 * t + 3]? = some b3) :
    packWord B t = le32 b0 b1 b2 b3 := by
  simp only [packWord, List.getD_eq_getElem?_getD, h0, h1, h2, h3, Option.getD_some]

/-- A word of a block whose four bytes are the low ones of v. -/
theorem packWord_eq_ofNat {B : Block} {t v : Nat} (h : ∀ i < 4, B[4 * t + i]? = some (byteOf v i)) :
    packWord B t = BitVec.ofNat 32 v := by
  rw [packWord_eq_le32 (h 0 (by omega)) (h 1 (by omega)) (h 2 (by omega)) (h 3 (by omega)), le32_byteOf]

/-- Byte i of word t is byte 4 t + i of the block. -/
theorem byteOf_packWord (B : Block) (t : Nat) {i : Nat} (hi : i < 4) :
    byteOf (packWord B t).toNat i = B.getD (4 * t + i) 0 :=
  byteOf_le32 (fun i => B.getD (4 * t + i) 0) hi

/-- The block of sixteen words: byte a is byte a mod 4 of word a div 4. -/
def unpack (X : List Word) : Block := (List.range 64).map fun a => byteOf (xWord X (a / 4)).toNat (a % 4)

@[simp] theorem length_unpack (X : List Word) : (unpack X).length = 64 := by simp [unpack]

theorem getElem?_unpack (X : List Word) {a : Nat} (ha : a < 64) :
    (unpack X)[a]? = some (byteOf (xWord X (a / 4)).toNat (a % 4)) := by simp [unpack, ha]

theorem xWord_PACK (B : Block) {t : Nat} (ht : t < 16) : xWord (PACK B) t = packWord B t := by
  rw [xWord, List.getD_eq_getElem?_getD, getElem?_PACK B ht, Option.getD_some]

/-- Unpacking undoes PACK. -/
theorem unpack_PACK {B : Block} (hB : B.length = 64) : unpack (PACK B) = B := by
  apply List.ext_getElem?
  intro a
  by_cases ha : a < 64
  · rw [getElem?_unpack _ ha, xWord_PACK B (by omega), byteOf_packWord B _ (by omega), Nat.div_add_mod,
      List.getD_eq_getElem?_getD, List.getElem?_eq_getElem (by omega), Option.getD_some]
  · rw [List.getElem?_eq_none (by rw [length_unpack]; omega), List.getElem?_eq_none (by omega)]

/-- PACK undoes unpacking. -/
theorem PACK_unpack {X : List Word} (hX : X.length = 16) : PACK (unpack X) = X := by
  apply List.ext_getElem?
  intro t
  by_cases ht : t < 16
  · have hw : packWord (unpack X) t = xWord X t := by
      rw [packWord_eq_ofNat (v := (xWord X t).toNat) fun i hi => by
        rw [getElem?_unpack X (by omega), Nat.mul_add_div (by omega), Nat.div_eq_of_lt hi, Nat.mul_add_mod,
          Nat.mod_eq_of_lt hi, Nat.add_zero], BitVec.ofNat_toNat, BitVec.setWidth_eq]
    rw [getElem?_PACK _ ht, hw, xWord, List.getD_eq_getElem?_getD, List.getElem?_eq_getElem (by omega),
      Option.getD_some]
  · rw [List.getElem?_eq_none (by rw [length_PACK]; omega), List.getElem?_eq_none (by omega)]

/-- Settles O35: the words by their bytes, and the bijection by PACK's two-sided inverse. -/
theorem packIsALittleEndianBijection : Obligations.PackIsALittleEndianBijection := by
  refine ⟨fun B _ => ⟨length_PACK B, fun t ht b0 b1 b2 b3 h0 h1 h2 h3 => ?_⟩, fun B B' hB hB' h => ?_,
    fun X hX => ⟨unpack X, length_unpack X, PACK_unpack hX⟩, fun _ _ hB h => packBuf_ok hB h⟩
  · exact ⟨_, getElem?_PACK B ht, by rw [packWord_eq_le32 h0 h1 h2 h3, toNat_le32]⟩
  · rw [← unpack_PACK hB, h, unpack_PACK hB']

/-! ### The last block of the padded message -/

/-- The number of zero bytes in closed form (R80, R81). -/
theorem padZeros_eq (L : Nat) : padZeros L = (119 - L % 64) % 64 := by
  have hfind : (List.range 64).find? (fun k => (L + 1 + k) % 64 == 56) = some ((119 - L % 64) % 64) := by
    rw [List.find?_range_eq_some]
    refine ⟨by rw [beq_iff_eq]; omega, List.mem_range.2 (by omega), fun k hk => ?_⟩
    rw [Bool.not_eq_true', beq_eq_false_iff_ne]
    omega
  rw [padZeros, hfind, Option.getD_some]

theorem getElem?_lengthField (L : Nat) {i : Nat} (hi : i < 8) : (lengthField L)[i]? = some (byteOf (L * 8) i) := by
  rw [lengthField, getElem?_bytesLE, if_pos hi]

/-- The padded message is whole blocks, then 56 bytes, then the length field. -/
theorem padBytes_eq_append (M : List Byte) : ∃ W Q : List Byte, W.length % 64 = 0 ∧ Q.length = 56 ∧
    padBytes M = W ++ (Q ++ lengthField M.length) := by
  have hlen : (M ++ [Config.padByte] ++ List.replicate (padZeros M.length) 0).length % 64 = 56 := by
    simp only [List.length_append, List.length_singleton, List.length_replicate, padZeros_eq]
    omega
  rw [padBytes]
  generalize M ++ [Config.padByte] ++ List.replicate (padZeros M.length) 0 = P at hlen ⊢
  refine ⟨P.take (P.length - 56), P.drop (P.length - 56), ?_, ?_, ?_⟩
  · rw [List.length_take]; omega
  · rw [List.length_drop]; omega
  · rw [← List.append_assoc, List.take_append_drop]

section
variable {Q : List Byte} (hQ : Q.length = 56) (L : Nat)
include hQ

/-- Byte 56 + i of a block that ends in the length field. -/
theorem getElem?_append_lengthField {i : Nat} (hi : i < 8) :
    (Q ++ lengthField L)[56 + i]? = some (byteOf (L * 8) i) := by
  rw [← hQ, List.getElem?_append_right (by omega), Nat.add_sub_cancel_left, getElem?_lengthField L hi]

/-- Word 14 of a block that ends in the length field. -/
theorem packWord_lengthField_low : packWord (Q ++ lengthField L) 14 = BitVec.ofNat 32 (L * 8) :=
  packWord_eq_ofNat fun _ hi => getElem?_append_lengthField hQ L (by omega)

/-- Word 15 of a block that ends in the length field. -/
theorem packWord_lengthField_high : packWord (Q ++ lengthField L) 15 = BitVec.ofNat 32 (L * 8 / 2 ^ 32) :=
  packWord_eq_ofNat fun i hi => by
    rw [← byteOf_four_add, ← getElem?_append_lengthField hQ L (by omega), ← Nat.add_assoc]

end

/-- Settles O36: the last block SPLIT takes off ends in the length field, which its last two words read. -/
theorem lengthFieldIsTheLastTwoWords : Obligations.LengthFieldIsTheLastTwoWords := by
  intro M _
  obtain ⟨W, Q, hW, hQ, hP⟩ := padBytes_eq_append M
  refine ⟨fun i hi => ?_, SPLIT W, Q, hQ, ?_, ?_, ?_⟩
  · rw [getElem?_lengthField _ hi, byteOf, show 256 = 2 ^ 8 from rfl, ofNat_mod_two_pow]
  · rw [hP, SPLIT_append hW (by rw [List.length_append, hQ, length_lengthField])]
  · rw [getElem?_PACK _ (by omega), packWord_lengthField_low hQ, ofNat_mod_two_pow]
  · rw [getElem?_PACK _ (by omega), packWord_lengthField_high hQ]

end Sys2Proof.Machine

/-!
The encoding family (30_encoding.md): the decoder and the encoder undo each other on the legal tokens, whose values are
written out; the count of them; the response token; the pseudo-instructions.
-/

namespace Sys2Proof.Machine

/-! ### The decoder and the encoder -/

/-- READ's address is the one check (R64). -/
theorem wellFormed_read {k : Byte} : (Instr.read k).wellFormed = true ↔ k.toNat ≤ 19 := decide_eq_true_iff

/-- The fields of a command decode to it. -/
theorem decodeFields_opcode_operand {i : Instr} (hw : i.wellFormed = true) :
    decodeFields i.opcode i.operand = .instr i := by
  cases i with
  | init => rfl
  | absorb b => rfl
  | final => rfl
  | read k => exact if_pos (wellFormed_read.1 hw)

/-- Fields that decode to a command are its own. -/
theorem fields_of_decodeFields {op : BitVec 2} {arg : Byte} {i : Instr} (h : decodeFields op arg = .instr i) :
    i.wellFormed = true ∧ i.opcode = op ∧ i.operand = arg := by
  unfold decodeFields at h
  split_ifs at h with h0 ha h1 h2 ha hk <;> cases h
  · exact ⟨rfl, h0.symm, ha.symm⟩
  · exact ⟨rfl, h1.symm, rfl⟩
  · exact ⟨rfl, h2.symm, ha.symm⟩
  · have h3 : op = 3 := by bv_omega
    exact ⟨wellFormed_read.2 hk, h3.symm, rfl⟩

/-- Decoding undoes encoding (R71). -/
theorem decode_encode {i : Instr} (hw : i.wellFormed = true) : decode (encode i) = .instr i := by
  rw [decode, encode, opField_formatC, argField_formatC, decodeFields_opcode_operand hw]

/-- Encoding undoes decoding (R71). -/
theorem encode_of_decode {t : Token} {i : Instr} (h : decode t = .instr i) : i.wellFormed = true ∧ encode i = t := by
  obtain ⟨hw, hop, harg⟩ := fields_of_decodeFields h
  exact ⟨hw, by rw [encode, hop, harg, formatC_fields]⟩

theorem toNat_encode (i : Instr) : (encode i).toNat = i.opcode.toNat * 256 + i.operand.toNat := toNat_formatC _ _

theorem toNat_encode_absorb (b : Byte) : (encode (.absorb b)).toNat = 0x100 + b.toNat := by
  simp [toNat_encode, Instr.opcode, Instr.operand]

theorem toNat_encode_read (k : Byte) : (encode (.read k)).toNat = 0x300 + k.toNat := by
  simp [toNat_encode, Instr.opcode, Instr.operand]

/-- A token with a command's value decodes to it. -/
theorem decode_of_toNat_eq {t : Token} {i : Instr} (hw : i.wellFormed = true) (h : t.toNat = (encode i).toNat) :
    decode t = .instr i := by
  rw [BitVec.eq_of_toNat_eq h, decode_encode hw]

/-! ### The values of the legal tokens -/

/-- The legal token values (R64). -/
abbrev LegalValue (n : Nat) : Prop :=
  n = 0x000 ∨ (0x100 ≤ n ∧ n ≤ 0x1FF) ∨ n = 0x200 ∨ (0x300 ≤ n ∧ n ≤ 0x313)

theorem legalValue_encode {i : Instr} (hw : i.wellFormed = true) : LegalValue (encode i).toNat := by
  cases i with
  | init => exact .inl rfl
  | absorb b =>
    have hb := b.isLt
    rw [toNat_encode_absorb]
    exact .inr (.inl (by omega))
  | final => exact .inr (.inr (.inl rfl))
  | read k =>
    have hk := wellFormed_read.1 hw
    rw [toNat_encode_read]
    exact .inr (.inr (.inr (by omega)))

section
variable {t : Token}

theorem decode_absorbRange (hlo : 0x100 ≤ t.toNat) (hhi : t.toNat ≤ 0x1FF) :
    decode t = .instr (.absorb (BitVec.ofNat 8 (t.toNat - 0x100))) :=
  decode_of_toNat_eq rfl (by rw [toNat_encode_absorb, BitVec.toNat_ofNat]; omega)

theorem decode_readRange (hlo : 0x300 ≤ t.toNat) (hhi : t.toNat ≤ 0x313) :
    decode t = .instr (.read (BitVec.ofNat 8 (t.toNat - 0x300))) :=
  decode_of_toNat_eq (wellFormed_read.2 (by rw [BitVec.toNat_ofNat]; omega))
    (by rw [toNat_encode_read, BitVec.toNat_ofNat]; omega)

/-- A token decodes to a command exactly when its value is legal. -/
theorem legalValue_iff_exists_decode : LegalValue t.toNat ↔ ∃ i, decode t = .instr i := by
  constructor
  · rintro (h | ⟨hlo, hhi⟩ | h | ⟨hlo, hhi⟩)
    · exact ⟨.init, decode_of_toNat_eq rfl h⟩
    · exact ⟨_, decode_absorbRange hlo hhi⟩
    · exact ⟨.final, decode_of_toNat_eq rfl h⟩
    · exact ⟨_, decode_readRange hlo hhi⟩
  · rintro ⟨i, h⟩
    obtain ⟨hw, rfl⟩ := encode_of_decode h
    exact legalValue_encode hw

/-- A token of any other value is reserved (R65). -/
theorem decode_reserved (h : ¬ LegalValue t.toNat) : ∃ why, decode t = .reserved why := by
  cases hd : decode t with
  | instr i => exact absurd (legalValue_iff_exists_decode.2 ⟨i, hd⟩) h
  | reserved why => exact ⟨why, rfl⟩

end

/-- Settles O2: a token has a command's value, or none and is reserved; decoder and encoder undo each other. -/
theorem decoderIsTotalAndEncoderItsInverse : Obligations.DecoderIsTotalAndEncoderItsInverse := by
  refine ⟨fun t => ⟨decode_of_toNat_eq (i := .init) rfl, fun _ _ => decode_reserved ?_, decode_absorbRange,
    decode_of_toNat_eq (i := .final) rfl, fun _ _ => decode_reserved ?_, decode_readRange,
    fun _ => decode_reserved ?_⟩, rfl, toNat_encode_absorb, rfl, fun k _ => toNat_encode_read k,
    fun _ => decode_encode, fun _ _ => encode_of_decode⟩
  all_goals omega

/-! ### The number of legal tokens -/

/-- A table word below 1024 reads as a command exactly when its value is legal. -/
theorem isSome_decodeTableWord {n : Nat} (h : n < 1024) : (decodeTableWord 16 n).isSome = true ↔ LegalValue n := by
  have hv : tableValue 16 n = n := Nat.mod_eq_of_lt (by omega)
  have ht : (BitVec.ofNat 10 n).toNat = n := Nat.mod_eq_of_lt h
  rw [decodeTableWord, hv, if_pos h]
  conv_rhs => rw [← ht, legalValue_iff_exists_decode]
  cases decode (BitVec.ofNat 10 n) <;> simp

/-- The tokens in the order of their values, cut where legal and reserved ones meet. -/
theorem range_1024_eq : List.range 1024 =
    List.range' 0x000 1 ++ List.range' 0x001 255 ++ List.range' 0x100 256 ++ List.range' 0x200 1 ++
      List.range' 0x201 255 ++ List.range' 0x300 20 ++ List.range' 0x314 236 := by
  rw [List.range_eq_range', show 1024 = 1 + 255 + 256 + 1 + 255 + 20 + 236 from rfl]
  simp only [← List.range'_append_1]

/-- A range of legal values counts in full. -/
theorem countP_legal {a k : Nat} (hk : a + k ≤ 1024) (h : ∀ n, a ≤ n → n < a + k → LegalValue n) :
    (List.range' a k).countP (fun n => (decodeTableWord 16 n).isSome) = k := by
  rw [List.countP_eq_length.2 fun n hn => ?_, List.length_range']
  obtain ⟨hlo, hhi⟩ := List.mem_range'_1.1 hn
  exact (isSome_decodeTableWord (by omega)).2 (h n hlo hhi)

/-- A range of reserved values does not count. -/
theorem countP_reserved {a k : Nat} (hk : a + k ≤ 1024) (h : ∀ n, a ≤ n → n < a + k → ¬ LegalValue n) :
    (List.range' a k).countP (fun n => (decodeTableWord 16 n).isSome) = 0 :=
  List.countP_eq_zero.2 fun n hn hs => by
    obtain ⟨hlo, hhi⟩ := List.mem_range'_1.1 hn
    exact h n hlo hhi ((isSome_decodeTableWord (by omega)).1 hs)

/-- One INIT, 256 ABSORBs, one FINAL and twenty READs (R64). -/
theorem countP_isSome_decodeTableWord :
    (List.range 1024).countP (fun n => (decodeTableWord 16 n).isSome) = 278 := by
  rw [range_1024_eq]
  simp only [List.countP_append]
  rw [countP_legal (a := 0x000), countP_reserved (a := 0x001), countP_legal (a := 0x100), countP_legal (a := 0x200),
    countP_reserved (a := 0x201), countP_legal (a := 0x300), countP_reserved (a := 0x314)]
  all_goals omega

/-- Settles O1: the tokens by evaluation, the legal ones counted by ranges, the reserved ones as the rest. -/
theorem decodeOfWrittenOutTokens : Obligations.DecodeOfWrittenOutTokens := by
  have hlegal := countP_isSome_decodeTableWord
  rw [List.countP_eq_length_filter] at hlegal
  refine ⟨by decide, by decide, by decide, by decide, by decide, by decide, by decide, by decide, by decide,
    hlegal, ?_⟩
  have htotal := (List.range 1024).length_eq_length_filter_add fun n => (decodeTableWord 16 n).isSome
  simp only [Option.not_isSome, List.length_range, hlegal] at htotal
  omega

/-! ### The response token -/

/-- A response token has the fields of format S, laid out as those of a command token are (R62). -/
theorem respToken_eq_formatC (st : Status) (d : Byte) : respToken st d = formatC st.code d := rfl

/-- Settles O3: the value and the two fields of the format, with each status's code. -/
theorem responseTokenCarriesStatusAndData : Obligations.ResponseTokenCarriesStatusAndData := by
  intro st d
  rw [respToken_eq_formatC]
  refine ⟨?_, opField_formatC _ _, argField_formatC _ _⟩
  rw [toNat_formatC]
  rcases st with _ | (_ | _ | _) <;> rfl

/-! ### The pseudo-instructions -/

theorem expand_absorbs (text : List Char) :
    (ScriptLine.absorbs text).expand = text.map fun c => .absorb (BitVec.ofNat 8 c.toNat) := List.map_map

theorem getElem?_expand_digest {k : Nat} (hk : k < 20) :
    ScriptLine.digest.expand[k]? = some (.read (BitVec.ofNat 8 k)) := by
  simp [ScriptLine.expand, digestReads, hk]

theorem expand_hash (text : List Char) : (ScriptLine.hash text).expand =
    [.init] ++ (ScriptLine.absorbs text).expand ++ [.final] ++ ScriptLine.digest.expand := by
  simp [ScriptLine.expand, hashCommands]

/-- Settles O52: each pseudo-instruction by its expansion. -/
theorem pseudoInstructionsExpand : Obligations.PseudoInstructionsExpand :=
  ⟨expand_absorbs, rfl, fun _ _ => rfl, fun _ => getElem?_expand_digest, rfl, expand_hash⟩

end Sys2Proof.Machine

/-!
The framer family (40_framer.md): the padded message by its length, byte by byte and by the bound; SPLIT; the blocks a
message hands to COMPRESS on its way through ABSORB and FINAL.
-/

namespace Sys2Proof.Machine

/-! ### The length of the padded message -/

/-- Settles O31: every clause is arithmetic on the closed form. -/
theorem paddingZerosHaveAClosedForm : Obligations.PaddingZerosHaveAClosedForm := by
  intro L
  simp only [padZeros_eq]
  exact ⟨by omega, fun k hk => by omega, by omega, by omega, by omega, by omega, by omega⟩

theorem length_padBytes (M : List Byte) : (padBytes M).length = M.length + 1 + padZeros M.length + 8 := by
  simp only [padBytes, List.length_append, List.length_singleton, List.length_replicate, length_lengthField]

/-- The padded message is `blockCount` whole blocks (R82). -/
theorem length_padBytes_eq_blocks (M : List Byte) : (padBytes M).length = 64 * blockCount M.length := by
  rw [length_padBytes, padZeros_eq, blockCount]
  omega

/-- Settles O32: the length is that of the four parts, the rest arithmetic on the number of blocks. -/
theorem paddedLengthIsWholeBlocks : Obligations.PaddedLengthIsWholeBlocks := by
  intro M hM
  refine ⟨length_padBytes M, length_padBytes_eq_blocks M, ?_⟩
  rw [blockCount]
  omega

/-! ### PAD's value -/

/-- PAD has the value `padBytes` below the length bound and no other (R80, R87). -/
theorem PAD_eq_some {M P : List Byte} : PAD M = some P ↔ M.length < 2 ^ 61 ∧ padBytes M = P := by
  rw [PAD, Option.ite_none_right_eq_some, Option.some.injEq, Config.lenMax]

theorem isSome_PAD (M : List Byte) : (PAD M).isSome ↔ M.length < 2 ^ 61 := by
  simp [Option.isSome_iff_exists, PAD_eq_some]

/-- Settles O34: DIGEST has a value where PAD has one. -/
theorem padAndDigestStopAtTheLengthBound : Obligations.PadAndDigestStopAtTheLengthBound := by
  intro M
  refine ⟨isSome_PAD M, ?_⟩
  rw [DIGEST, Option.isSome_map, isSome_PAD]

/-! ### The length field read back -/

/-- The bytes above the lowest are those of the value without it. -/
theorem bytesLE_succ (v n : Nat) : bytesLE v (n + 1) = byteOf v 0 :: bytesLE (v / 2 ^ 8) n := by
  have hbyte : byteOf v ∘ Nat.succ = byteOf (v / 2 ^ 8) := by
    funext i
    rw [Function.comp_apply, byteOf, byteOf, Nat.div_div_eq_div_mul, ← pow_add, Nat.mul_succ, Nat.add_comm]
  rw [bytesLE, List.range_succ_eq_map, List.map_cons, List.map_map, hbyte, bytesLE]

/-- A value that fits its bytes is read back from them (R11). -/
theorem leValue_bytesLE (n : Nat) : ∀ {v : Nat}, v < 2 ^ (8 * n) → leValue (bytesLE v n) = v := by
  induction n with
  | zero => intro v hv; exact (Nat.lt_one_iff.1 hv).symm
  | succ n ih =>
    intro v hv
    have hdiv : v / 2 ^ 8 < 2 ^ (8 * n) := by
      rw [Nat.div_lt_iff_lt_mul (by decide), ← pow_add]
      exact hv
    rw [bytesLE_succ, leValue, ih hdiv, toNat_byteOf]
    omega

/-- The length field of a message below the bound holds its bit length (R83). -/
theorem leValue_lengthField {L : Nat} (hL : L < 2 ^ 61) : leValue (lengthField L) = L * 8 :=
  leValue_bytesLE 8 (by omega)

/-! ### The padded message byte by byte -/

section
variable (M : List Byte)

/-- What stands before the length field: the message, the marker byte and the zeros. -/
def beforeLength : List Byte := M ++ [Config.padByte] ++ List.replicate (padZeros M.length) 0

theorem padBytes_eq_beforeLength : padBytes M = beforeLength M ++ lengthField M.length := rfl

theorem length_beforeLength : (beforeLength M).length = (padBytes M).length - 8 := by
  rw [padBytes_eq_beforeLength, List.length_append, length_lengthField, Nat.add_sub_cancel]

/-- The last eight bytes are the length field. -/
theorem drop_padBytes : (padBytes M).drop ((padBytes M).length - 8) = lengthField M.length := by
  rw [← length_beforeLength, padBytes_eq_beforeLength, List.drop_left]

theorem take_padBytes : (padBytes M).take M.length = M := by
  rw [padBytes, List.append_assoc, List.append_assoc, List.take_left]

theorem getElem?_padBytes_message {i : Nat} (hi : i < M.length) : (padBytes M)[i]? = M[i]? := by
  conv_rhs => rw [← take_padBytes M, List.getElem?_take_of_lt hi]

theorem getElem?_padBytes_marker : (padBytes M)[M.length]? = some Config.padByte := by
  rw [padBytes, List.append_assoc, List.append_assoc, List.getElem?_append_right (Nat.le_refl _), Nat.sub_self]
  rfl

theorem getElem?_padBytes_zero {i : Nat} (hlo : M.length < i) (hhi : i < (padBytes M).length - 8) :
    (padBytes M)[i]? = some 0 := by
  rw [length_padBytes] at hhi
  rw [padBytes, List.getElem?_append_left (by simp; omega), List.getElem?_append_right (by simp; omega),
    List.getElem?_replicate, if_pos (by simp; omega)]

theorem getElem?_padBytes_length {i : Nat} (hi : i < 8) :
    (padBytes M)[(padBytes M).length - 8 + i]? = some (byteOf (M.length * 8) i) := by
  rw [← List.getElem?_drop, drop_padBytes, getElem?_lengthField _ hi]

/-- The message is recovered from its padding (R84). -/
theorem eq_take_of_lengthField (hM : M.length < 2 ^ 61) :
    M = (padBytes M).take (leValue ((padBytes M).drop ((padBytes M).length - 8)) / 8) := by
  rw [drop_padBytes, leValue_lengthField hM, Nat.mul_div_cancel _ (by decide), take_padBytes]

end

/-- Settles O33: the bytes by the four parts; two messages with one padding are both recovered from it. -/
theorem paddedMessageByteByByte : Obligations.PaddedMessageByteByByte := by
  refine ⟨fun M P h => ?_, fun M M' P h h' => ?_⟩
  · obtain ⟨hM, rfl⟩ := PAD_eq_some.1 h
    refine ⟨by rw [length_padBytes_eq_blocks, Nat.mul_mod_right], fun i => getElem?_padBytes_message M,
      getElem?_padBytes_marker M, fun i => getElem?_padBytes_zero M, fun i hi => ?_, eq_take_of_lengthField M hM⟩
    rw [getElem?_padBytes_length M hi, byteOf, show 256 = 2 ^ 8 from rfl, ofNat_mod_two_pow]
  · obtain ⟨hM, hP⟩ := PAD_eq_some.1 h
    obtain ⟨hM', hP'⟩ := PAD_eq_some.1 h'
    rw [eq_take_of_lengthField M hM, eq_take_of_lengthField M' hM', hP, hP']

/-! ### SPLIT -/

theorem length_takeBlocks (n : Nat) : ∀ P : List Byte, (takeBlocks n P).length = n := by
  induction n with
  | zero => intro P; rfl
  | succ n ih => intro P; rw [takeBlocks, List.length_cons, ih]

/-- Block i, from 0, starts at byte 64 i. -/
theorem getElem?_takeBlocks (n : Nat) : ∀ (P : List Byte) {i : Nat}, i < n →
    (takeBlocks n P)[i]? = some ((P.drop (64 * i)).take 64) := by
  induction n with
  | zero => intro P i hi; omega
  | succ n ih =>
    intro P i hi
    cases i with
    | zero => rfl
    | succ i =>
      rw [takeBlocks, List.getElem?_cons_succ, ih _ (by omega), List.drop_drop, Nat.mul_succ, Nat.add_comm]

/-- The blocks one after another are the bytes they were taken from. -/
theorem flatten_takeBlocks (n : Nat) : ∀ P : List Byte, (takeBlocks n P).flatten = P.take (64 * n) := by
  induction n with
  | zero => intro P; simp [takeBlocks]
  | succ n ih => intro P; rw [takeBlocks, List.flatten_cons, ih, ← List.take_add, Nat.mul_succ, Nat.add_comm]

/-- Settles O37: the blocks SPLIT takes, by number, by index and one after another. -/
theorem splitCutsWholeBlocksInOrder : Obligations.SplitCutsWholeBlocksInOrder := by
  intro P N hP
  have hN : SPLIT P = takeBlocks N P := by rw [SPLIT, hP, Nat.mul_div_cancel_left _ (by decide)]
  rw [hN]
  refine ⟨length_takeBlocks N P, fun i => getElem?_takeBlocks N P, ?_⟩
  rw [flatten_takeBlocks, ← hP, List.take_length]

/-! ### The whole blocks of a message and the bytes after them -/

section
variable (M : List Byte)

/-- The whole blocks of a message, those an engine that has absorbed it has compressed (10_state.md R35). -/
def wholeBlocks : List Block := SPLIT (M.take (64 * (M.length / 64)))

/-- The bytes of a message after its whole blocks, those an engine that has absorbed it holds in the buffer (R35). -/
def tailBytes : List Byte := M.drop (64 * (M.length / 64))

theorem length_tailBytes : (tailBytes M).length = M.length % 64 := by
  rw [tailBytes, List.length_drop]
  omega

/-- The blocks of a message followed by what makes its last bytes one block more. -/
theorem SPLIT_append_block {Q : List Byte} (hQ : (tailBytes M ++ Q).length = 64) :
    SPLIT (M ++ Q) = wholeBlocks M ++ [tailBytes M ++ Q] := by
  have hcut : M ++ Q = M.take (64 * (M.length / 64)) ++ (tailBytes M ++ Q) := by
    rw [tailBytes, ← List.append_assoc, List.take_append_drop]
  rw [hcut, SPLIT_append (by rw [List.length_take]; omega) hQ, wholeBlocks]

/-- A byte that does not fill the block. -/
theorem wholeBlocks_append_room (b : Byte) (hM : M.length % 64 < 63) : wholeBlocks (M ++ [b]) = wholeBlocks M := by
  have hdiv : (M ++ [b]).length / 64 = M.length / 64 := by rw [List.length_append, List.length_singleton]; omega
  rw [wholeBlocks, hdiv, List.take_append_of_le_length (by omega), wholeBlocks]

/-- The byte that fills the block. -/
theorem wholeBlocks_append_block (b : Byte) (hM : M.length % 64 = 63) :
    wholeBlocks (M ++ [b]) = wholeBlocks M ++ [tailBytes M ++ [b]] := by
  have hlen : (M ++ [b]).length = M.length + 1 := by simp
  rw [wholeBlocks, List.take_of_length_le (by omega),
    SPLIT_append_block M (by rw [List.length_append, length_tailBytes, hM, List.length_singleton])]

/-- The padded blocks when the last bytes leave room for the length (R82). -/
theorem SPLIT_padBytes_one (hM : M.length % 64 < 56) : SPLIT (padBytes M) = wholeBlocks M ++
    [tailBytes M ++ [Config.padByte] ++ List.replicate (55 - (tailBytes M).length) 0 ++ lengthField M.length] := by
  have hz : padZeros M.length = 55 - (tailBytes M).length := by rw [padZeros_eq, length_tailBytes]; omega
  simp only [padBytes, hz, List.append_assoc]
  exact SPLIT_append_block M (by simp [length_tailBytes]; omega)

/-- The padded blocks when they do not: one that the zeros fill, and one of zeros and the length (R82). -/
theorem SPLIT_padBytes_two (hM : 56 ≤ M.length % 64) : SPLIT (padBytes M) = wholeBlocks M ++
    [tailBytes M ++ [Config.padByte] ++ List.replicate (63 - (tailBytes M).length) 0,
      List.replicate 56 0 ++ lengthField M.length] := by
  have hz : padZeros M.length = 63 - (tailBytes M).length + 56 := by rw [padZeros_eq, length_tailBytes]; omega
  have hcut : padBytes M = M ++ ([Config.padByte] ++ List.replicate (63 - (tailBytes M).length) 0) ++
      (List.replicate 56 0 ++ lengthField M.length) := by
    simp only [padBytes, hz, List.replicate_add, List.append_assoc]
  have hfst : (tailBytes M ++ ([Config.padByte] ++ List.replicate (63 - (tailBytes M).length) 0)).length = 64 := by
    simp [length_tailBytes]; omega
  rw [hcut, SPLIT_append (by simp [length_tailBytes]; omega) (by simp), SPLIT_append_block M hfst]
  simp

end

/-! ### The blocks each command hands to COMPRESS -/

/-- The block an ABSORB that fills it hands over: the live bytes and then its own (R88). -/
theorem absorbBlocks_block {T : List Byte} {s : State} (hT : LiveBytes T s) (b : Byte) (hf : fill s = 63) :
    absorbBlocks b s = [T ++ [b]] := by
  rw [absorbBlocks_eq, if_pos (by rw [fill_stored, hf]),
    blockOf_eq (by simp [hT.length, hf]) fun a ha => hT.read_stored b (by omega)]

theorem absorbBlocks_room (b : Byte) {s : State} (hf : fill s < 63) : absorbBlocks b s = [] := by
  rw [absorbBlocks_eq, if_neg (by rw [fill_stored]; omega)]

/-- The one block of FINAL with a fill of at most 55 (R89). -/
theorem finalBlocks_one {T : List Byte} {s : State} (hT : LiveBytes T s) (hf : fill s < 56) : finalBlocks s =
    [T ++ [Config.padByte] ++ List.replicate (55 - T.length) 0 ++ lengthField s.LEN.toNat] := by
  have hlen := hT.length
  have hQ : (T ++ [Config.padByte] ++ List.replicate (55 - T.length) 0).length = 56 := by simp; omega
  have hread : ∀ a < 56, (padded s).BUF.read a = (T ++ [Config.padByte] ++ List.replicate (55 - T.length) 0)[a]? := by
    intro a ha
    have hz : List.replicate (63 - fill s) (0 : Byte) = List.replicate (55 - T.length) 0 ++ List.replicate 8 0 := by
      rw [← List.replicate_add, hlen]; congr 1; omega
    rw [padded_read hlen hT.read (by omega), hz, ← List.append_assoc, List.getElem?_append_left (by omega)]
  rw [finalBlocks_eq, if_neg (by omega),
    blockOf_eq (by rw [List.length_append, hQ, length_lengthField]) fun a ha => lengthened_read hQ hread ha, padded_LEN]

/-- The two blocks of FINAL with a fill of 56 or more (R89). -/
theorem finalBlocks_two {T : List Byte} {s : State} (hT : LiveBytes T s) (hf : 56 ≤ fill s) : finalBlocks s =
    [T ++ [Config.padByte] ++ List.replicate (63 - T.length) 0,
      List.replicate 56 0 ++ lengthField s.LEN.toNat] := by
  have hlt := fill_lt s
  have hfst : blockOf (padded s).BUF = T ++ [Config.padByte] ++ List.replicate (63 - fill s) 0 :=
    blockOf_eq (by simp [hT.length]; omega) fun a ha => padded_read hT.length hT.read ha
  have hsnd (u : State) : blockOf (lengthened (cleared u)).BUF = List.replicate 56 0 ++ lengthField u.LEN.toNat :=
    blockOf_eq (by simp) fun a ha => by
      rw [lengthened_read (List.length_replicate ..) (fun a ha => cleared_read u ha) ha, cleared_LEN]
  rw [finalBlocks_eq, if_pos hf, hfst, hsnd, padded_LEN, hT.length]

/-- An accepted FINAL answers. -/
theorem exec_final_completes {T : List Byte} {s : State} (hp : s.PH = .active) (hT : LiveBytes T s) :
    ∃ t, exec .final s = .next t := by
  rw [exec_final_active hp]
  by_cases hf : fill s < 56
  · exact ⟨_, finish_next.2 ⟨_, finalBody_one hT hf, rfl⟩⟩
  · exact ⟨_, finish_next.2 ⟨_, finalBody_two hT (by omega), rfl⟩⟩

/-! ### The blocks a message hands over on its way -/

theorem handedBy_cons {i : Instr} {s t : State} (h : exec i s = .next t) (is : List Instr) :
    handedBy (i :: is) s = handed i s ++ handedBy is t := by
  rw [handedBy, h]

section
variable {M : List Byte} {s : State} (h : Absorbed M s)
include h

/-- An accepted ABSORB hands over the whole block its byte completes, if it completes one (R88). -/
theorem Absorbed.handed_absorb (b : Byte) (hM : M.length + 1 < Config.lenMax) :
    wholeBlocks M ++ handed (.absorb b) s = wholeBlocks (M ++ [b]) := by
  have hroom : lenFull s = false := by
    rw [Bool.eq_false_iff, Ne, lenFull_iff, h.len]
    exact Nat.ne_of_lt hM
  rw [handed, if_pos (by simp [phaseAccepts, h.active, hroom])]
  by_cases hf : fill s < 63
  · rw [absorbBlocks_room b hf, List.append_nil, wholeBlocks_append_room M b (h.fill_eq ▸ hf)]
  · have hf : fill s = 63 := by have := fill_lt s; omega
    rw [absorbBlocks_block h.liveBytes b hf, wholeBlocks_append_block M b (h.fill_eq ▸ hf), tailBytes]

/-- The ABSORBs of N hand over the whole blocks that N completes, and leave M and N absorbed (R90). -/
theorem Absorbed.handedBy_absorbAll (N : List Byte) (hMN : (M ++ N).length < Config.lenMax) :
    ∃ t, Absorbed (M ++ N) t ∧ ∀ is,
      wholeBlocks M ++ handedBy (absorbAll N ++ is) s = wholeBlocks (M ++ N) ++ handedBy is t := by
  induction N generalizing M s with
  | nil => exact ⟨s, by simpa using h, fun is => by simp [absorbAll]⟩
  | cons b N ih =>
    have hM : M.length + 1 < Config.lenMax := by
      rw [List.length_append, List.length_cons] at hMN
      omega
    obtain ⟨u, hu, hMb, -, -⟩ := exec_absorb_absorbed h b hM
    obtain ⟨t, ht, hblocks⟩ := ih hMb (by simpa using hMN)
    refine ⟨t, by simpa using ht, fun is => ?_⟩
    have hcons : absorbAll (b :: N) ++ is = .absorb b :: (absorbAll N ++ is) := rfl
    rw [hcons, handedBy_cons hu, ← List.append_assoc, h.handed_absorb b hM, hblocks, List.append_assoc,
      List.singleton_append]

/-- FINAL hands over the rest of the padded blocks (R89, R90). -/
theorem Absorbed.handedBy_final : wholeBlocks M ++ handedBy [.final] s = SPLIT (padBytes M) := by
  obtain ⟨t, ht⟩ := exec_final_completes h.active h.liveBytes
  rw [handedBy_cons ht, handedBy, List.append_nil, handed, if_pos (by simp [phaseAccepts, h.active])]
  by_cases hf : fill s < 56
  · rw [finalBlocks_one h.liveBytes hf, SPLIT_padBytes_one M (h.fill_eq ▸ hf), h.len, tailBytes]
  · rw [finalBlocks_two h.liveBytes (by omega), SPLIT_padBytes_two M (by rw [← h.fill_eq]; omega), h.len, tailBytes]

end

/-- Settles O47: from the empty message, which has no whole block, the ABSORBs hand over the whole blocks and FINAL the
rest of the padded ones. -/
theorem blocksHandedAreThePaddedBlocks : Obligations.BlocksHandedAreThePaddedBlocks := by
  intro M s h hM
  refine ⟨padBytes M, PAD_eq_some.2 ⟨hM, rfl⟩, ?_⟩
  obtain ⟨t, ht, hblocks⟩ := h.absorbed_nil.handedBy_absorbAll M hM
  calc handedBy (absorbAll M ++ [.final]) s
      = wholeBlocks [] ++ handedBy (absorbAll M ++ [.final]) s := rfl
    _ = wholeBlocks M ++ handedBy [.final] t := hblocks [.final]
    _ = SPLIT (padBytes M) := ht.handedBy_final

end Sys2Proof.Machine

/-!
The compressor family (41_compressor.md): rotation bit by bit, the boolean functions, the tables, one round, the two
lines under any schedule, COMBINE, the micro-steps and CHAIN.
-/

namespace Sys2Proof.Machine

/-! ### Rotation (R101) -/

/-- The two shifts of a rotation have no bit in common: no bit is invented. -/
theorem shiftLeft_and_shiftRight (x : Word) (n : Nat) : x <<< n &&& x >>> (32 - n) = 0#32 := by
  refine BitVec.eq_of_getLsbD_eq fun i hi => ?_
  by_cases hin : i < n
  · simp [hin]
  · simp [BitVec.getLsbD_of_ge x (32 - n + i) (by omega)]

theorem rol_eq_rotateLeft (x : Word) {n : Nat} (hn : n < 32) : rol x n = x.rotateLeft n := by
  rw [rol, BitVec.add_eq_or_of_and_eq_zero _ _ (shiftLeft_and_shiftRight x n),
    BitVec.rotateLeft_eq_rotateLeftAux_of_lt hn, BitVec.rotateLeftAux]

theorem getLsbD_rol (x : Word) {n i : Nat} (hn : n < 32) (hi : i < 32) :
    (rol x n).getLsbD ((i + n) % 32) = x.getLsbD i := by
  rw [rol_eq_rotateLeft x hn, BitVec.getLsbD_rotateLeft_of_le hn]
  by_cases hwrap : i + n < 32
  · have hpos : (i + n) % 32 = i + n := Nat.mod_eq_of_lt hwrap
    simp [hpos, hwrap]
  · have hlow : (i + n) % 32 < n := by omega
    have hpos : 32 - n + (i + n) % 32 = i := by omega
    simp [hlow, hpos]

theorem toNat_rol (x : Word) (n : Nat) :
    (rol x n).toNat = x.toNat * 2 ^ n % 2 ^ 32 + x.toNat / 2 ^ (32 - n) := by
  rw [rol, BitVec.toNat_add_of_and_eq_zero (shiftLeft_and_shiftRight x n), BitVec.toNat_shiftLeft,
    BitVec.toNat_ushiftRight, Nat.shiftLeft_eq, Nat.shiftRight_eq_div_pow]

theorem rol_zero (x : Word) : rol x 0 = x := by
  have hx : x.toNat < 2 ^ 32 := x.isLt
  refine BitVec.eq_of_toNat_eq ?_
  rw [toNat_rol]
  omega

/-- Settles O22: a rotation is two shifts without a common bit, so its sum is a disjunction and does not wrap. -/
theorem rotationMovesEveryBit : Obligations.RotationMovesEveryBit := by
  intro x n hn
  have hn : n < 32 := by omega
  refine ⟨fun i hi => getLsbD_rol x hn hi, fun _ => toNat_rol x n, ?_⟩
  rintro rfl
  exact rol_zero x

/-! ### The boolean functions (R107) -/

section
variable {i : Nat} (x y z : Word)

theorem getLsbD_not32 (hi : i < 32) : (not32 x).getLsbD i = !x.getLsbD i := by
  have hones : (0xFFFFFFFF : Word) = BitVec.allOnes 32 := rfl
  rw [not32, hones, BitVec.getLsbD_xor, BitVec.getLsbD_allOnes, decide_eq_true hi, Bool.xor_true]

theorem getLsbD_f1 : (f1 x y z).getLsbD i = (x.getLsbD i ^^ y.getLsbD i ^^ z.getLsbD i) := by
  simp [f1]

theorem getLsbD_f2 (hi : i < 32) :
    (f2 x y z).getLsbD i = (x.getLsbD i && y.getLsbD i || !x.getLsbD i && z.getLsbD i) := by
  simp [f2, getLsbD_not32 x hi]

theorem getLsbD_f3 (hi : i < 32) : (f3 x y z).getLsbD i = ((x.getLsbD i || !y.getLsbD i) ^^ z.getLsbD i) := by
  simp [f3, getLsbD_not32 y hi]

theorem getLsbD_f4 (hi : i < 32) :
    (f4 x y z).getLsbD i = (x.getLsbD i && z.getLsbD i || y.getLsbD i && !z.getLsbD i) := by
  simp [f4, getLsbD_not32 z hi]

theorem getLsbD_f5 (hi : i < 32) : (f5 x y z).getLsbD i = (x.getLsbD i ^^ (y.getLsbD i || !z.getLsbD i)) := by
  simp [f5, getLsbD_not32 z hi]

end

/-- Settles O23: each function works bit by bit, and eight cases of three bits remain. -/
theorem booleanFunctionsHaveTheirTruthTables : Obligations.BooleanFunctionsHaveTheirTruthTables := by
  intro x y z i hi
  simp only [getLsbD_f1, getLsbD_f2 x y z hi, getLsbD_f3 x y z hi, getLsbD_f4 x y z hi, getLsbD_f5 x y z hi]
  generalize x.getLsbD i = a, y.getLsbD i = b, z.getLsbD i = c
  revert a b c
  decide

/-! ### The tables (R108 to R115) -/

/-- Settles O24: functions and constants depend on the sub-round alone, and there are five of them. -/
theorem roundsUseTheirFunctionsAndConstants : Obligations.RoundsUseTheirFunctionsAndConstants := by
  intro j hj
  have hu : j / 16 < 5 := by omega
  unfold fL fR KL KR subRound
  generalize j / 16 = u at hu
  match u, hu with
  | 0, _ => exact ⟨rfl, rfl, rfl, rfl⟩
  | 1, _ => exact ⟨rfl, rfl, rfl, rfl⟩
  | 2, _ => exact ⟨rfl, rfl, rfl, rfl⟩
  | 3, _ => exact ⟨rfl, rfl, rfl, rfl⟩
  | 4, _ => exact ⟨rfl, rfl, rfl, rfl⟩

theorem wordRows_perm : ∀ row ∈ rowsRL ++ rowsRR, row.Perm (List.range 16) := by decide

/-- A row that is a permutation of 0..15 sums to 120. -/
theorem sum_of_perm_range {row : List Nat} (h : row.Perm (List.range 16)) : row.sum = 120 := h.sum_eq

/-- A table of five rows, each a permutation of 0..15, reads each word once a row, so five times. -/
theorem count_entry {rows : List (List Nat)} (hflat : (List.range 80).map (entry rows) = rows.flatten)
    (hperm : ∀ row ∈ rows, row.Perm (List.range 16)) (hfive : rows.length = 5) {w : Nat} (hw : w < 16) :
    ((List.range 80).filter fun j => entry rows j == w).length = 5 := by
  have hrow : ∀ row ∈ rows, row.count w = 1 := fun row hmem => by
    rw [(hperm row hmem).count_eq, List.nodup_range.count, if_pos (List.mem_range.2 hw)]
  calc ((List.range 80).filter fun j => entry rows j == w).length
      = ((List.range 80).map (entry rows)).count w := by
        rw [← List.countP_eq_length_filter, List.count, List.countP_map]; rfl
    _ = (rows.map (List.count w)).sum := by rw [hflat, List.count_flatten]
    _ = (rows.map fun _ => 1).sum := by rw [List.map_congr_left hrow]
    _ = 5 := by simp [hfive]

/-- Settles O25: the rows are compared with their checks; the sums and counts of the word tables follow from their rows
being permutations. -/
theorem tablesPassTheTranscriptionChecks : Obligations.TablesPassTheTranscriptionChecks := by
  have hL : ∀ row ∈ rowsRL, row.Perm (List.range 16) := fun row h => wordRows_perm row (List.mem_append_left _ h)
  have hR : ∀ row ∈ rowsRR, row.Perm (List.range 16) := fun row h => wordRows_perm row (List.mem_append_right _ h)
  refine ⟨wordRows_perm, by decide, by decide, rfl, rfl, by decide, rfl, rfl, rfl, rfl, ?_, ?_⟩
  · exact fun row h => sum_of_perm_range (wordRows_perm row h)
  · exact fun w hw => ⟨count_entry rfl hL rfl hw, count_entry rfl hR rfl hw⟩

/-! ### One round, COMBINE and CHAIN (R116, R117, R120, R122) -/

/-- Settles O26: both lines' rounds are `roundWith` at their own function, constant, word and rotation. -/
theorem roundMovesTheRegisters : Obligations.RoundMovesTheRegisters :=
  fun _ _ _ _ _ => ⟨rfl, rfl⟩

/-- Settles O27: the sums written out are the definition; the indexed form is read at each of the five words, and the
in-place form keeps every old word until it has been read. -/
theorem combineAddsOldStateAndBothLines : Obligations.CombineAddsOldStateAndBothLines := by
  refine fun h l r => ⟨rfl, fun i hi => ?_, rfl⟩
  match i, hi with
  | 0, _ => rfl
  | 1, _ => rfl
  | 2, _ => rfl
  | 3, _ => rfl
  | 4, _ => rfl

theorem CHAIN_append (Bs : List Block) (B : Block) : CHAIN (Bs ++ [B]) = COMPRESS (CHAIN Bs) (PACK B) := by
  rw [CHAIN, List.foldl_append, List.foldl_cons, List.foldl_nil, foldBlock, ← CHAIN]

/-- Settles O30: CHAIN is a left fold from IV. -/
theorem chainFoldsBlocksInOrder : Obligations.ChainFoldsBlocksInOrder :=
  ⟨rfl, CHAIN_append⟩

/-! ### The two lines under any schedule (R125) -/

section
variable (X : List Word)

theorem Lines.run_cons (c : Lines) (side : Side) (sched : List Side) :
    Lines.run X c (side :: sched) = Lines.run X (c.advance X side) sched := rfl

/-- A left round reads and moves the left line alone. -/
theorem Lines.advance_left (l r : LineRegs) (m n : Nat) :
    Lines.advance X ⟨roundsL X l m, r, m, n⟩ .left = ⟨roundsL X l (m + 1), r, m + 1, n⟩ := rfl

/-- A right round reads and moves the right line alone. -/
theorem Lines.advance_right (l r : LineRegs) (m n : Nat) :
    Lines.advance X ⟨l, roundsR X r n, m, n⟩ .right = ⟨l, roundsR X r (n + 1), m, n + 1⟩ := rfl

/-- A schedule moves each line on by as many rounds as it holds of that line. -/
theorem Lines.run_rounds (l r : LineRegs) (sched : List Side) : ∀ m n : Nat,
    Lines.run X ⟨roundsL X l m, roundsR X r n, m, n⟩ sched =
      ⟨roundsL X l (m + sched.count .left), roundsR X r (n + sched.count .right),
        m + sched.count .left, n + sched.count .right⟩ := by
  induction sched with
  | nil => exact fun _ _ => rfl
  | cons side sched ih =>
    intro m n
    rw [Lines.run_cons]
    cases side with
    | left => rw [Lines.advance_left, ih]; simp [Nat.add_assoc, Nat.add_comm 1]
    | right => rw [Lines.advance_right, ih]; simp [Nat.add_assoc, Nat.add_comm 1]

end

/-- Settles O28: the registers depend on how many rounds of each line a schedule holds, and on nothing else. -/
theorem everyScheduleOfTheLinesAgrees : Obligations.EveryScheduleOfTheLinesAgrees := by
  intro h X sched hleft hright
  have hrun : Lines.run X (Lines.start h) sched = ⟨lineL h X, lineR h X, 80, 80⟩ := by
    have hrounds := Lines.run_rounds X (loadLine h) (loadLine h) sched 0 0
    rwa [hleft, hright, Nat.zero_add] at hrounds
  exact ⟨hrun, by rw [hrun, COMPRESS]⟩

/-! ### The micro-steps (R126) -/

/-- J counts the rounds done since the start step. -/
theorem microRun_startLines_J (X : List Word) (s : State) {n : Nat} (hn : n ≤ 80) :
    (microRun X n (startLines s)).J = n := by
  rw [microRun_rounds X n (startLines s) (loadLine s.H) (loadLine s.H) (by simpa using hn) rfl rfl, State.setJ_J,
    startLines_J, Nat.zero_add]

/-- Stated for any values: with a compression in their place, `rfl` would unfold its 80 rounds. -/
theorem setLines_setJ_setH (l r : LineRegs) (j : Nat) (h : Running) (s : State) :
    (((s.setL l).setR r).setJ j).setH h = { s with H := h, L := l, R := r, J := j } := rfl

/-- Settles O29: the machine's compression is start, 80 rounds and combine by definition, and what it leaves is
`afterCompress`. -/
theorem microStepsGiveCompress : Obligations.MicroStepsGiveCompress := by
  intro X s
  have hrun : compressWith X s = microRun X (80 + 1) (startLines s) := by rw [compressWith]
  refine ⟨fun n hn => microRun_startLines_J X s hn, ?_, hrun⟩
  rw [← hrun, compressWith_eq, afterCompress, setLines_setJ_setH]

end Sys2Proof.Machine

/-!
The serializer family (42_serializer.md): SER by its twenty bytes, its inverse, and the length of a digest.
-/

namespace Sys2Proof.Machine

/-! ### SER by its bytes (R140, R141) -/

/-- The five words' bytes one after another are the digest bytes in the order of their addresses. -/
theorem SER_eq_map_digestByte (h : Running) : SER h = (List.range 20).map (digestByte h) := rfl

@[simp] theorem length_SER (h : Running) : (SER h).length = 20 := by
  rw [SER_eq_map_digestByte, List.length_map, List.length_range]

theorem getElem?_SER (h : Running) {k : Nat} (hk : k < 20) : (SER h)[k]? = some (digestByte h k) := by
  rw [SER_eq_map_digestByte, List.getElem?_map, List.getElem?_range hk, Option.map_some]

/-- Byte i of word t stands at address 4 t + i (R46). -/
theorem digestByte_mul_add (h : Running) (t : Nat) {i : Nat} (hi : i < 4) :
    digestByte h (4 * t + i) = byteOf (hWord h t).toNat i := by
  rw [digestByte, Nat.mul_add_div (by omega), Nat.div_eq_of_lt hi, Nat.add_zero, Nat.mul_add_mod, Nat.mod_eq_of_lt hi]

/-! ### SER and its inverse -/

/-- The running state whose words are the little-endian words of a byte sequence: `SER` read back. -/
def deserialize (d : List Byte) : Running :=
  ⟨packWord d 0, packWord d 1, packWord d 2, packWord d 3, packWord d 4⟩

theorem hWord_deserialize (d : List Byte) {t : Nat} (ht : t < 5) : hWord (deserialize d) t = packWord d t := by
  interval_cases t <;> rfl

theorem packWord_SER (h : Running) {t : Nat} (ht : t < 5) : packWord (SER h) t = hWord h t := by
  rw [packWord_eq_ofNat fun i hi => by rw [getElem?_SER h (by omega), digestByte_mul_add h t hi],
    BitVec.ofNat_toNat, BitVec.setWidth_eq]

/-- Reading back undoes SER. -/
theorem deserialize_SER (h : Running) : deserialize (SER h) = h := by
  simp only [deserialize, packWord_SER, Nat.reduceLT]
  rfl

/-- SER undoes reading back. -/
theorem SER_deserialize {d : List Byte} (hd : d.length = 20) : SER (deserialize d) = d := by
  apply List.ext_getElem?
  intro k
  by_cases hk : k < 20
  · rw [getElem?_SER _ hk, digestByte, hWord_deserialize d (by omega), byteOf_packWord d _ (by omega),
      Nat.div_add_mod, List.getD_eq_getElem?_getD, List.getElem?_eq_getElem (by omega), Option.getD_some]
  · rw [List.getElem?_eq_none (by rw [length_SER]; omega), List.getElem?_eq_none (by omega)]

/-- Settles O38: the bytes by their addresses, and the bijection by SER's two-sided inverse. -/
theorem serializerIsALittleEndianBijection : Obligations.SerializerIsALittleEndianBijection := by
  refine ⟨fun h => ⟨length_SER h, fun k hk => ?_⟩, fun h h' heq => ?_,
    fun d hd => ⟨deserialize d, SER_deserialize hd⟩⟩
  · rw [getElem?_SER h hk, digestByte, byteOf, show 256 = 2 ^ 8 from rfl, ofNat_mod_two_pow]
  · rw [← deserialize_SER h, heq, deserialize_SER]

/-! ### The length of a digest (R142, R146) -/

/-- Settles O39: a digest is SER of a running state. -/
theorem digestIsTwentyBytes : Obligations.DigestIsTwentyBytes := by
  intro M d h
  obtain ⟨P, -, rfl⟩ := Option.map_eq_some_iff.1 h
  exact length_SER _

end Sys2Proof.Machine

/-!
The command family (43_commands.md): what each command does when it is accepted, what its response tells of the phase,
and the hash sequence INIT, ABSORB of each byte, FINAL, READ of the twenty digest bytes.
-/

namespace Sys2Proof.Machine

/-! ### INIT and READ -/

/-- Settles O13: INIT is three writes and a response. -/
theorem initBeginsANewComputation : Obligations.InitBeginsANewComputation := fun _ => rfl

/-- An accepted READ responds with its digest byte and writes no state (R154). -/
theorem exec_read_finalized {k : Byte} {s : State} (hk : k.toNat < 20) (hp : s.PH = .finalized) :
    exec (.read k) s = .next (s.respond .ok (readOperand k s)) := by
  rw [exec, execRead, checkEnc_legal (wellFormed_read.2 (by omega)), checkPhase_accepts (by simp [phaseAccepts, hp])]

/-- READ's operand in the arithmetic of R141. -/
theorem readOperand_eq_ofNat (k : Byte) (s : State) : readOperand k s =
    BitVec.ofNat 8 ((hWord s.H (k.toNat / 4)).toNat / 2 ^ (8 * (k.toNat % 4)) % 256) := by
  rw [readOperand, digestByte, byteOf, show 256 = 2 ^ 8 from rfl, ofNat_mod_two_pow]

/-- Settles O20: the two checks in their order, then the response. -/
theorem readReturnsADigestByte : Obligations.ReadReturnsADigestByte := by
  intro k s
  refine ⟨fun hk => ⟨s.raise .errEnc, ?_, by simp⟩, fun hk hp => ⟨s.raise .errSeq, ?_, by simp⟩, fun hk hp => ?_⟩
  · have hw : (Instr.read k).wellFormed = false := by rw [Bool.eq_false_iff, Ne, wellFormed_read]; omega
    rw [exec, execRead, checkEnc_reserved hw]
  · exact exec_wrong_phase (wellFormed_read.2 (by omega)) (by simp [phaseAccepts, hp])
  · rw [exec_read_finalized hk hp, readOperand_eq_ofNat]
    rfl

/-! ### ABSORB -/

/-- Settles O14: the accepted ABSORB of a byte that does not fill the block. -/
theorem absorbStoresItsByte : Obligations.AbsorbStoresItsByte := by
  intro b s hp hl hfull
  rw [exec_absorb_room b hp hl (by rw [fill]; omega)]
  rfl

/-- Settles O15: the 63 bytes are the live bytes, and the block is theirs and the ABSORB's own. -/
theorem absorbCompressesTheFullBlock : Obligations.AbsorbCompressesTheFullBlock := by
  intro b B s hp hl hfull hB hread
  have hf : fill s = 63 := by rw [fill]; omega
  have hT : LiveBytes B s := ⟨hB.trans hf.symm, by rwa [hf]⟩
  refine ⟨_, exec_absorb_block b hp hl hf hT, by simp, by simp, by simp [hp], fun a ha => ?_, by simp, by simp⟩
  rw [State.respond_BUF, compressWith_BUF, hT.read_stored b (by omega)]

/-- All that an accepted ABSORB can do: store and count its byte, and compress when the block is full. -/
theorem exec_absorb_next {b : Byte} {s t : State} (hp : s.PH = .active) (hl : s.LEN.toNat + 1 < Config.lenMax)
    (h : exec (.absorb b) s = .next t) : t = (stored b s).respond .ok 0 ∨
      (s.LEN.toNat + 1) % 64 = 0 ∧ ∃ X, t = (compressWith X (stored b s)).respond .ok 0 := by
  rw [exec_absorb_active hp hl, absorbBody_eq] at h
  obtain ⟨u, hu, ht⟩ := finish_next.1 h
  split at hu
  · next hfull =>
    obtain ⟨X, -, hX⟩ := compressBuf_next hu
    rw [fill, stored_LEN, toNat_succ_LEN hl] at hfull
    exact .inr ⟨hfull, X, by rw [ht, hX]⟩
  · exact .inl (by rw [ht, Except.ok.inj hu])

/-- Settles O16: a compression writes H and the working registers and J; the byte and the counter are `stored`. -/
theorem absorbFrame : Obligations.AbsorbFrame := by
  intro b s t hp hl h
  have hread (a : Nat) (ha : a ≠ fill s) : (stored b s).BUF.read a = s.BUF.read a := by rw [stored_read, if_neg ha]
  have hLEN : (s.LEN + 1).toNat = s.LEN.toNat + 1 := toNat_succ_LEN hl
  obtain ht | ⟨hfull, X, ht⟩ := exec_absorb_next hp hl h
  · simp only [ht, State.respond_BUF]
    exact ⟨by simp [stored_read], hread, by simpa using hLEN, by simp, by simp, by simp, by simp⟩
  · simp only [ht, State.respond_BUF, compressWith_BUF]
    exact ⟨by simp [stored_read], hread, by simpa using hLEN, by simp, by simp, by simp, fun hne => absurd hfull hne⟩

/-! ### FINAL -/

/-- The first 56 bytes of the last block of a message that leaves room for the length (R89). -/
theorem LiveBytes.read_padded_short {T : List Byte} {s : State} (hT : LiveBytes T s) (hf : fill s < 56) {a : Nat}
    (ha : a < 56) :
    (padded s).BUF.read a = (T ++ [Config.padByte] ++ List.replicate (55 - T.length) 0)[a]? := by
  have hlen := hT.length
  have hz : List.replicate (63 - fill s) (0 : Byte) = List.replicate (55 - T.length) 0 ++ List.replicate 8 0 := by
    rw [← List.replicate_add, hlen]; congr 1; omega
  rw [padded_read hlen hT.read (by omega), hz, ← List.append_assoc, List.getElem?_append_left (by simp; omega)]

/-- Settles O18: FINAL's body with room for the length. -/
theorem finalMakesOneBlock : Obligations.FinalMakesOneBlock := by
  intro T s hp hf hlen hread
  have hT : LiveBytes T s := ⟨hlen, by rwa [fill, ← hlen]⟩
  have hf : fill s < 56 := by rw [fill]; omega
  refine ⟨_, (exec_final_active hp).trans (finish_next.2 ⟨_, finalBody_one hT hf, rfl⟩),
    by simp [lengthField, Config.padByte], fun a ha => ?_, by simp, by simp, by simp, by simp⟩
  rw [State.respond_BUF, State.setPH_BUF, compressWith_BUF,
    lengthened_read (by simp; omega) (fun a ha => hT.read_padded_short hf ha) ha, padded_LEN]
  rfl

/-- Settles O19: FINAL's body without room for the length. -/
theorem finalMakesTwoBlocks : Obligations.FinalMakesTwoBlocks := by
  intro T s hp hf hlen hread
  have hT : LiveBytes T s := ⟨hlen, by rwa [fill, ← hlen]⟩
  refine ⟨_, (exec_final_active hp).trans (finish_next.2 ⟨_, finalBody_two hT hf, rfl⟩),
    by simp [lengthField, Config.padByte], fun a ha => ?_, by simp, by simp, by simp, by simp⟩
  rw [State.respond_BUF, State.setPH_BUF, compressWith_BUF,
    lengthened_read (List.length_replicate ..) (fun a ha => cleared_read _ ha) ha, cleared_LEN, compressWith_LEN,
    padded_LEN]
  rfl

/-- An accepted FINAL folds H over its blocks (R89, R90), enters FINALIZED and responds OK. -/
theorem exec_final_folds {T : List Byte} {s : State} (hp : s.PH = .active) (hT : LiveBytes T s) :
    ∃ t, exec .final s = .next t ∧ t.H = (finalBlocks s).foldl foldBlock s.H ∧ t.PH = .finalized ∧
      t.cmdChan = s.cmdChan ∧ t.rspChan = s.rspChan ++ [0x000] := by
  rw [exec_final_active hp]
  by_cases hf : fill s < 56
  · rw [finalBody_one hT hf, finalBlocks_one hT hf]
    exact ⟨_, rfl, by simp [foldBlock], by simp, by simp, by simp⟩
  · rw [finalBody_two hT (by omega), finalBlocks_two hT (by omega)]
    exact ⟨_, rfl, by simp [foldBlock], by simp, by simp, by simp⟩

/-- FINAL's blocks are the padded ones after the whole blocks of the message (R90). -/
theorem Absorbed.wholeBlocks_append_finalBlocks {M : List Byte} {s : State} (h : Absorbed M s) :
    wholeBlocks M ++ finalBlocks s = SPLIT (padBytes M) := by
  obtain ⟨t, ht⟩ := exec_final_completes h.active h.liveBytes
  have hhanded : handed .final s = finalBlocks s := if_pos (by simp [phaseAccepts, h.active])
  rw [← h.handedBy_final, handedBy_cons ht, handedBy, List.append_nil, hhanded]

/-- Settles O45: H is the chain of the whole blocks already, and FINAL folds the rest of the padded ones in. -/
theorem finalLeavesTheDigestOfTheMessage : Obligations.FinalLeavesTheDigestOfTheMessage := by
  intro M s h
  obtain ⟨t, ht, hH, hph, hcmd, hrsp⟩ := exec_final_folds h.active h.liveBytes
  have hpad : PAD M = some (padBytes M) := PAD_eq_some.2 ⟨h.len ▸ s.LEN.isLt, rfl⟩
  have hchain : t.H = CHAIN (SPLIT (padBytes M)) := by
    calc t.H = (finalBlocks s).foldl foldBlock (CHAIN (wholeBlocks M)) := by rw [hH, h.chain, wholeBlocks]
      _ = CHAIN (wholeBlocks M ++ finalBlocks s) := List.foldl_append.symm
      _ = CHAIN (SPLIT (padBytes M)) := by rw [h.wholeBlocks_append_finalBlocks]
  exact ⟨t, padBytes M, ht, hpad, hchain, by rw [DIGEST, hpad, Option.map_some, hchain], hph, hcmd, hrsp⟩

/-! ### The phase a response tells of -/

/-- The status field tells an OK response from a reject's (R62), also as the last one on the channel. -/
theorem responses_ok_ne_err (rs : List Token) (d d' : Byte) (e : Reject) :
    rs ++ [respToken .ok d] ≠ rs ++ [respToken (.err e) d'] := by
  intro h
  have hcode : Status.ok.code = (Status.err e).code := by
    have htok := (List.cons.inj (List.append_cancel_left h)).1
    rw [respToken_eq_formatC, respToken_eq_formatC] at htok
    rw [← opField_formatC Status.ok.code d, htok, opField_formatC]
  cases e <;> exact absurd hcode (by decide)

/-- The phase after an accepted command (R160). -/
def acceptedPhase : Instr → Phase → Phase
  | .init, _ => .active
  | .absorb _, ph => ph
  | .final, _ => .finalized
  | .read _, ph => ph

/-- A command is rejected and enters FAULTED, or accepted and enters the phase of R160; the response tells which. -/
theorem exec_next_phase {i : Instr} {s t : State} (h : exec i s = .next t) :
    (∃ e, t.rspChan = s.rspChan ++ [respToken (.err e) 0] ∧ t.PH = .faulted) ∨
    (∃ d, t.rspChan = s.rspChan ++ [respToken .ok d] ∧ t.PH = acceptedPhase i s.PH ∧
      phaseAccepts i s.PH = true ∧ (i = .final → d = 0)) := by
  obtain ⟨e, ht, -⟩ | ⟨hi, ht⟩ | ⟨b, u, hi, hp, -, ht, hu⟩ | ⟨u, hi, hp, hu, ht⟩ | ⟨k, hi, -, hp, ht⟩ := exec_next h
  · exact .inl ⟨e, by simp [ht], by simp [ht]⟩
  · exact .inr ⟨0, by simp [ht], by simp [ht, hi, acceptedPhase], by simp [hi, phaseAccepts], by simp⟩
  · have hkept : u.rspChan = s.rspChan ∧ u.PH = s.PH := by
      obtain ⟨-, hu⟩ | ⟨-, X, -, hu⟩ := hu <;> simp [hu]
    obtain ⟨hrsp, hph⟩ := hkept
    exact .inr ⟨0, by simp [ht, hrsp], by simp [ht, hi, hph, acceptedPhase], by simp [hi, hp, phaseAccepts], by simp⟩
  · obtain ⟨X, v, hX, -, -, hrsp, -⟩ := finalBody_ok hu
    exact .inr ⟨0, by simp [ht, hX, hrsp], by simp [ht, hX, hi, acceptedPhase], by simp [hi, hp, phaseAccepts], by simp⟩
  · exact .inr ⟨_, by rw [ht, State.respond_rspChan], by simp [ht, hi, acceptedPhase],
      by simp [hi, hp, phaseAccepts], by simp [hi]⟩

/-- A command answered with OK has entered the phase of R160. -/
theorem exec_ok_phase {i : Instr} {s t : State} {d : Byte} (h : exec i s = .next t)
    (hrsp : t.rspChan = s.rspChan ++ [respToken .ok d]) : t.PH = acceptedPhase i s.PH := by
  obtain ⟨e, hr, -⟩ | ⟨-, -, hph, -⟩ := exec_next_phase h
  · exact absurd (hrsp.symm.trans hr) (responses_ok_ne_err _ _ _ _)
  · exact hph

/-- A command answered with a reject has entered FAULTED (60_exceptions.md R186). -/
theorem exec_err_phase {i : Instr} {s t : State} {e : Reject} (h : exec i s = .next t)
    (hrsp : t.rspChan = s.rspChan ++ [respToken (.err e) 0]) : t.PH = .faulted := by
  obtain ⟨-, -, hph⟩ | ⟨d, hr, -⟩ := exec_next_phase h
  · exact hph
  · exact absurd (hr.symm.trans hrsp) (responses_ok_ne_err _ _ _ _)

/-- A step that changes the phase: the cases of a step, and for a command its acceptance. -/
theorem step_phase_change {s t : State} (hstep : step s = .next t) (hne : t.PH ≠ s.PH) :
    (∃ e rest, s.cmdChan = e :: rest ∧ e.answered = false ∧ t.PH = .active) ∨
    (∃ rest, s.cmdChan = .token (encode .init) :: rest ∧ t.PH = .active) ∨
    (∃ rest, s.cmdChan = .token (encode .final) :: rest ∧ s.PH = .active ∧ t.PH = .finalized ∧
      t.rspChan = s.rspChan ++ [0x000]) ∨
    (∃ tok rest e, s.cmdChan = .token tok :: rest ∧ t.PH = .faulted ∧
      t.rspChan = s.rspChan ++ [respToken (.err e) 0]) := by
  obtain ⟨-, ht⟩ | ⟨e, rest, hs, he, ht⟩ | ⟨tok, rest, why, hs, -, ht⟩ | ⟨tok, rest, i, hs, hd, he⟩ := step_next hstep
  · exact absurd (by rw [ht]) hne
  · have hans : e.answered = false := by obtain rfl | ⟨tok, rfl⟩ := he <;> rfl
    exact .inl ⟨e, rest, hs, hans, by simp [ht]⟩
  · exact .inr (.inr (.inr ⟨tok, rest, .errEnc, hs, by simp [ht], by simp [ht]⟩))
  · obtain ⟨-, htok⟩ := encode_of_decode hd
    obtain ⟨e, hrsp, hph⟩ | ⟨d, hrsp, hph, hacc, hd0⟩ := exec_next_phase he
    · exact .inr (.inr (.inr ⟨tok, rest, e, hs, hph, hrsp⟩))
    · cases i with
      | init => exact .inr (.inl ⟨rest, htok ▸ hs, hph⟩)
      | absorb b => exact absurd hph hne
      | final =>
        exact .inr (.inr (.inl ⟨rest, htok ▸ hs, by simpa [phaseAccepts] using hacc, hph, by simpa [hd0] using hrsp⟩))
      | read k => exact absurd hph hne

/-- Settles O7: what a step that changes the phase has done, and what a command's response tells of the phase. -/
theorem phaseChangesOnlyAsListed : Obligations.PhaseChangesOnlyAsListed :=
  ⟨fun _ _ => step_phase_change,
    fun _ _ h => by rw [← Host.Outcome.next.inj h]; rfl,
    State.hwReset_PH,
    fun _ _ h hrsp => exec_ok_phase (d := 0) h hrsp,
    fun _ _ _ h hrsp => exec_ok_phase (d := 0) h hrsp,
    fun _ _ _ _ h hrsp => exec_ok_phase h hrsp,
    fun _ _ _ _ h hrsp => exec_err_phase h hrsp⟩

/-! ### A sequence of accepted commands -/

/-- Commands that are each accepted from what the one before left run through and bring their responses. `P as s` says
that the engine is in a state s from which the commands of `as` are still to come; `out` is a command's response. -/
theorem run_accepted {α : Type} {P : List α → State → Prop} (cmd : α → Instr) (out : α → Token)
    (hchan : ∀ {as s} evs, P as s → P as (s.setCmdChan evs))
    (hstep : ∀ {a as s}, P (a :: as) s → (cmd a).wellFormed = true ∧ ∃ t, exec (cmd a) s = .next t ∧ P as t ∧
      t.cmdChan = s.cmdChan ∧ t.rspChan = s.rspChan ++ [out a])
    (as : List α) : ∀ {s : State} {rest : List HostEvent}, P as s → s.cmdChan = toEvents (as.map cmd) ++ rest →
      ∃ t : State, Host.Core.run core as.length s = .next t ∧ P [] t ∧ t.cmdChan = rest ∧
        t.rspChan = s.rspChan ++ as.map out := by
  induction as with
  | nil => exact fun {s _} h hs => ⟨s, rfl, h, hs, by simp⟩
  | cons a as ih =>
    intro s rest h hs
    obtain ⟨hw, u, hu, hPu, hucmd, hursp⟩ := hstep (hchan (toEvents (as.map cmd) ++ rest) h)
    obtain ⟨t, ht, hPt, htcmd, htrsp⟩ := ih hPu hucmd
    refine ⟨t, (run_next ((step_of_token hs (decode_encode hw)).trans hu)).trans ht, hPt, htcmd, ?_⟩
    simp [htrsp, hursp]

/-- In ACTIVE in a state of the invariant, with room for the bytes of N. -/
structure RoomFor (N : List Byte) (s : State) : Prop where
  inv : Invariant s
  active : s.PH = .active
  len : s.LEN.toNat + N.length < Config.lenMax

/-- An ABSORB of the first of the bytes is accepted and leaves room for the others (R152). -/
theorem RoomFor.exec_absorb {b : Byte} {N : List Byte} {s : State} (h : RoomFor (b :: N) s) :
    ∃ t, exec (.absorb b) s = .next t ∧ RoomFor N t ∧ t.cmdChan = s.cmdChan ∧ t.rspChan = s.rspChan ++ [0x000] := by
  have hlen := h.len
  rw [List.length_cons] at hlen
  have hl : s.LEN.toNat + 1 < Config.lenMax := by omega
  obtain ⟨t, -, ht, -⟩ := exec_absorb_sameView h.inv.sameView_self b h.active hl
  obtain ⟨-, -, hLEN, hph, hcmd, hrsp, -⟩ := absorbFrame b s t h.active hl ht
  exact ⟨t, ht, ⟨exec_keeps_invariant h.inv ht, hph.trans h.active, by omega⟩, hcmd, hrsp⟩

/-- Settles O50: each ABSORB is accepted and leaves room for the rest. -/
theorem absorbingTellsTheHostNothing : Obligations.AbsorbingTellsTheHostNothing := by
  intro M s rest hinv hp hlen hs
  obtain ⟨t, ht, hroom, hcmd, hrsp⟩ := run_accepted (P := RoomFor) .absorb (fun _ => 0x000)
    (fun evs h => ⟨h.inv.setCmdChan evs, h.active, h.len⟩) (fun h => ⟨rfl, h.exec_absorb⟩) M ⟨hinv, hp, hlen⟩ hs
  exact ⟨t, ht, hroom.active, hcmd, by rw [hrsp, List.map_const']⟩

/-! ### The hash sequence (R163) -/

theorem Absorbed.setCmdChan {M : List Byte} {s : State} (h : Absorbed M s) (evs : List HostEvent) :
    Absorbed M (s.setCmdChan evs) :=
  ⟨h.active, h.len, h.chain, h.tail⟩

/-- Of the message M the bytes of N are still to come. -/
def AbsorbedUpTo (M N : List Byte) (s : State) : Prop := ∃ K, K ++ N = M ∧ Absorbed K s

theorem AbsorbedUpTo.setCmdChan {M N : List Byte} {s : State} (evs : List HostEvent) (h : AbsorbedUpTo M N s) :
    AbsorbedUpTo M N (s.setCmdChan evs) := by
  obtain ⟨K, hK, hKs⟩ := h
  exact ⟨K, hK, hKs.setCmdChan evs⟩

/-- An ABSORB of the next byte of a message below the length bound is accepted (R152). -/
theorem AbsorbedUpTo.exec_absorb {M N : List Byte} {b : Byte} {s : State} (hM : M.length < Config.lenMax)
    (h : AbsorbedUpTo M (b :: N) s) : ∃ t, exec (.absorb b) s = .next t ∧ AbsorbedUpTo M N t ∧
      t.cmdChan = s.cmdChan ∧ t.rspChan = s.rspChan ++ [0x000] := by
  obtain ⟨K, rfl, hKs⟩ := h
  rw [List.length_append, List.length_cons] at hM
  obtain ⟨t, ht, hKb, hchans⟩ := exec_absorb_absorbed hKs b (by omega)
  exact ⟨t, ht, ⟨K ++ [b], by simp, hKb⟩, hchans⟩

/-- The ABSORBs of a message below the length bound, from no byte absorbed. -/
theorem run_absorbAll {M : List Byte} {s : State} {rest : List HostEvent} (hM : M.length < Config.lenMax)
    (h : Absorbed [] s) (hs : s.cmdChan = toEvents (absorbAll M) ++ rest) :
    ∃ t : State, Host.Core.run core M.length s = .next t ∧ Absorbed M t ∧ t.cmdChan = rest ∧
      t.rspChan = s.rspChan ++ List.replicate M.length 0x000 := by
  obtain ⟨t, ht, ⟨K, hK, hKt⟩, hcmd, hrsp⟩ := run_accepted (P := AbsorbedUpTo M) .absorb (fun _ => 0x000)
    AbsorbedUpTo.setCmdChan (fun h => ⟨rfl, h.exec_absorb hM⟩) M ⟨[], rfl, h⟩ hs
  rw [List.append_nil] at hK
  exact ⟨t, ht, hK ▸ hKt, hcmd, by rw [hrsp, List.map_const']⟩

/-- FINALIZED with the running state h, and READs of digest bytes still to come. -/
structure Reading (h : Running) (ks : List Nat) (s : State) : Prop where
  finalized : s.PH = .finalized
  H : s.H = h
  addr : ∀ k ∈ ks, k < 20

/-- A READ is accepted and leaves the others to come (R154). -/
theorem Reading.exec_read {h : Running} {k : Nat} {ks : List Nat} {s : State} (hr : Reading h (k :: ks) s) :
    (Instr.read (BitVec.ofNat 8 k)).wellFormed = true ∧ ∃ t, exec (.read (BitVec.ofNat 8 k)) s = .next t ∧
      Reading h ks t ∧ t.cmdChan = s.cmdChan ∧ t.rspChan = s.rspChan ++ [respToken .ok (digestByte h k)] := by
  have hlt : k < 20 := hr.addr k List.mem_cons_self
  have hk : (BitVec.ofNat 8 k).toNat = k := Nat.mod_eq_of_lt (by omega)
  refine ⟨wellFormed_read.2 (by omega), _, exec_read_finalized (by omega) hr.finalized,
    ⟨hr.finalized, hr.H, fun k' hk' => hr.addr k' (List.mem_cons_of_mem _ hk')⟩, rfl, ?_⟩
  rw [State.respond_rspChan, readOperand, hr.H, hk]

/-- The twenty READs bring back SER of the running state. -/
theorem run_digestReads {s : State} {rest : List HostEvent} (hp : s.PH = .finalized)
    (hs : s.cmdChan = toEvents digestReads ++ rest) :
    ∃ t : State, Host.Core.run core 20 s = .next t ∧ t.cmdChan = rest ∧
      t.rspChan = s.rspChan ++ (SER s.H).map (respToken .ok) := by
  obtain ⟨t, ht, -, hcmd, hrsp⟩ := run_accepted (P := Reading s.H) (fun k => .read (BitVec.ofNat 8 k))
    (fun k => respToken .ok (digestByte s.H k)) (fun _ hr => ⟨hr.finalized, hr.H, hr.addr⟩) Reading.exec_read
    (List.range 20) ⟨hp, rfl, fun k hk => List.mem_range.1 hk⟩ hs
  refine ⟨t, ht, hcmd, ?_⟩
  rw [hrsp, SER_eq_map_digestByte, List.map_map]
  rfl

/-- From no byte absorbed: the ABSORBs, FINAL and the READs are all accepted and bring back the digest. -/
theorem run_message {M d : List Byte} {s : State} {rest : List HostEvent} (hd : DIGEST M = some d)
    (h : Absorbed [] s) (hs : s.cmdChan = toEvents (absorbAll M ++ .final :: digestReads) ++ rest) :
    ∃ t : State, Host.Core.run core (M.length + 21) s = .next t ∧ t.cmdChan = rest ∧
      t.rspChan = s.rspChan ++ List.replicate (M.length + 1) 0x000 ++ d.map (respToken .ok) := by
  have hM : M.length < Config.lenMax := ((padAndDigestStopAtTheLengthBound M).2).1 (by rw [hd]; rfl)
  obtain ⟨u, hu, hMu, hucmd, hursp⟩ := run_absorbAll hM h
    (rest := .token (encode .final) :: (toEvents digestReads ++ rest)) (by rw [hs]; simp [toEvents])
  obtain ⟨v, P, hv, -, -, hdv, hph, hvcmd, hvrsp⟩ :=
    finalLeavesTheDigestOfTheMessage M _ (hMu.setCmdChan (toEvents digestReads ++ rest))
  obtain ⟨t, ht, htcmd, htrsp⟩ := run_digestReads hph hvcmd
  have hser : SER v.H = d := Option.some.inj (hdv.symm.trans hd)
  refine ⟨t, ?_, htcmd, ?_⟩
  · rw [run_add M.length hu, run_next ((step_of_token hucmd (decode_encode rfl)).trans hv), ht]
  · rw [htrsp, hvrsp, State.setCmdChan_rspChan, hursp, hser, List.replicate_succ', ← List.append_assoc]

/-- The blocks of a message are handed over from Initialized, its whole ones by the ABSORBs (R90, R217). -/
theorem Initialized.length_handedBy {M : List Byte} {s : State} (h : Initialized s) (hM : M.length < Config.lenMax) :
    (handedBy (absorbAll M ++ [.final]) s).length = blockCount M.length ∧
      (handedBy (absorbAll M) s).length = M.length / 64 := by
  constructor
  · obtain ⟨P, hP, hall⟩ := blocksHandedAreThePaddedBlocks M s h hM
    obtain ⟨-, rfl⟩ := PAD_eq_some.1 hP
    rw [hall, SPLIT, length_takeBlocks, length_padBytes_eq_blocks, Nat.mul_div_cancel_left _ (by decide)]
  · obtain ⟨t, -, hblocks⟩ := h.absorbed_nil.handedBy_absorbAll M hM
    have hwhole : handedBy (absorbAll M) s = wholeBlocks M := by simpa [wholeBlocks, handedBy] using hblocks []
    rw [hwhole, wholeBlocks, SPLIT, length_takeBlocks, List.length_take]
    omega

/-- Settles O46: INIT and reset both leave a state with no byte absorbed, from which the message runs. -/
theorem hashSequenceReturnsTheDigest : Obligations.HashSequenceReturnsTheDigest := by
  intro M s rest hM
  obtain ⟨d, hd⟩ := Option.isSome_iff_exists.1 ((padAndDigestStopAtTheLengthBound M).2.2 hM)
  refine ⟨d, hd, ?_, ?_, fun u hu => ?_⟩
  · obtain ⟨t, ht, hcmd, hrsp⟩ := run_message (rest := rest) hd
      (initialized_init (s.setCmdChan (toEvents (absorbAll M ++ .final :: digestReads) ++ rest))).absorbed_nil rfl
    refine ⟨t, (run_next (step_of_token rfl (decode_encode (i := .init) rfl))).trans ht, hcmd, ?_⟩
    simp [hrsp, List.replicate_succ]
  · obtain ⟨t, ht, hcmd, hrsp⟩ := run_message (rest := rest) hd
      (initialized_hwReset (s.setCmdChan (toEvents (absorbAll M ++ .final :: digestReads) ++ rest))).absorbed_nil rfl
    exact ⟨t, (run_next (step_reset (e := .reset) rfl rfl)).trans ht, hcmd, hrsp⟩
  · rw [← Host.Outcome.next.inj hu]
    exact (initialized_init s).length_handedBy hM

end Sys2Proof.Machine

/-!
The exceptions family (60_exceptions.md): the acceptance table, what FAULTED rejects, the reject at the length bound,
what a reject lets a host see, several engines, and a step without an event.
-/

namespace Sys2Proof.Machine

/-! ### The acceptance table (R150) -/

/-- A reserved token is rejected in every phase (R182). -/
theorem acceptance_reserved (why : Reserved) (ph : Phase) (full : Bool) :
    acceptance (.reserved why) ph full = (.err .errEnc, .faulted) := by
  cases ph <;> rfl

/-- The cells that `phaseAccepts` excludes are ErrSeq (R183). -/
theorem acceptance_wrong_phase {i : Instr} {ph : Phase} (full : Bool) (h : phaseAccepts i ph = false) :
    acceptance (.instr i) ph full = (.err .errSeq, .faulted) := by
  cases ph with
  | active =>
    cases i with
    | read k => rfl
    | _ => cases h
  | finalized =>
    cases i with
    | absorb b => rfl
    | final => rfl
    | _ => cases h
  | faulted =>
    cases i with
    | init => cases h
    | _ => rfl

/-- The other cells are OK with the phase of R160, but for ABSORB at the length bound. -/
theorem acceptance_accepted {i : Instr} {ph : Phase} {full : Bool} (h : phaseAccepts i ph = true)
    (hroom : ∀ b, i = .absorb b → full = false) : acceptance (.instr i) ph full = (.ok, acceptedPhase i ph) := by
  cases ph with
  | active =>
    cases i with
    | absorb b => rw [hroom b rfl]; rfl
    | read k => cases h
    | _ => rfl
  | finalized =>
    cases i with
    | absorb b => cases h
    | final => cases h
    | _ => rfl
  | faulted =>
    cases i with
    | init => rfl
    | _ => cases h

/-- The length test, false: there is room for a byte (R184). -/
theorem lenFull_eq_false_iff (s : State) : lenFull s = false ↔ s.LEN.toNat + 1 < Config.lenMax := by
  have hle : s.LEN.toNat + 1 ≤ Config.lenMax := s.LEN.isLt
  rw [Bool.eq_false_iff, Ne, lenFull_iff]
  omega

/-- A FINAL in ACTIVE is accepted at every length. -/
theorem Invariant.exec_final {s : State} (h : Invariant s) (hp : s.PH = .active) :
    ∃ t, exec .final s = .next t ∧ t.PH = .finalized ∧ t.cmdChan = s.cmdChan ∧ t.rspChan = s.rspChan ++ [0x000] := by
  obtain ⟨T, hT, -⟩ := h.sameView_self.exists_liveBytes hp
  obtain ⟨t, ht, -, hchans⟩ := exec_final_folds hp hT
  exact ⟨t, ht, hchans⟩

/-- A command that passes the checks answers OK and enters the phase of R160; only a READ carries data. -/
theorem Invariant.exec_accepted {i : Instr} {s : State} (h : Invariant s) (hw : i.wellFormed = true)
    (ha : phaseAccepts i s.PH = true) (hroom : ∀ b, i = .absorb b → lenFull s = false) :
    ∃ (t : State) (d : Byte), exec i s = .next t ∧ t.PH = acceptedPhase i s.PH ∧ t.cmdChan = s.cmdChan ∧
      t.rspChan = s.rspChan ++ [respToken .ok d] ∧ ((∃ k, i = .read k ∧ s.PH = .finalized) ∨ d = 0) := by
  cases i with
  | init => exact ⟨_, 0, rfl, rfl, rfl, rfl, .inr rfl⟩
  | absorb b =>
    have hp : s.PH = .active := by simpa [phaseAccepts] using ha
    have hl := (lenFull_eq_false_iff s).1 (hroom b rfl)
    obtain ⟨t, ht, hnext, hcmd, hrsp⟩ := RoomFor.exec_absorb (N := []) ⟨h, hp, hl⟩
    exact ⟨t, 0, ht, hnext.active.trans hp.symm, hcmd, hrsp, .inr rfl⟩
  | final =>
    obtain ⟨t, ht, hph, hcmd, hrsp⟩ := h.exec_final (by simpa [phaseAccepts] using ha)
    exact ⟨t, 0, ht, hph, hcmd, hrsp, .inr rfl⟩
  | read k =>
    have hp : s.PH = .finalized := by simpa [phaseAccepts] using ha
    have hk := wellFormed_read.1 hw
    exact ⟨_, _, exec_read_finalized (by omega) hp, rfl, rfl, rfl, .inl ⟨k, rfl, hp⟩⟩

/-- A command answers as the table says: outside its phases, at the length bound, or accepted. -/
theorem Invariant.exec_acceptance {i : Instr} {s : State} (h : Invariant s) (hw : i.wellFormed = true) :
    ∃ (t : State) (d : Byte), exec i s = .next t ∧ t.cmdChan = s.cmdChan ∧
      t.rspChan = s.rspChan ++ [respToken (acceptance (.instr i) s.PH (lenFull s)).1 d] ∧
      t.PH = (acceptance (.instr i) s.PH (lenFull s)).2 ∧ ((∃ k, i = .read k ∧ s.PH = .finalized) ∨ d = 0) := by
  cases ha : phaseAccepts i s.PH with
  | false =>
    rw [acceptance_wrong_phase _ ha]
    exact ⟨_, 0, exec_wrong_phase hw ha, rfl, rfl, rfl, .inr rfl⟩
  | true =>
    by_cases hfull : ∃ b, i = .absorb b ∧ lenFull s = true
    · obtain ⟨b, rfl, hl⟩ := hfull
      have hp : s.PH = .active := by simpa [phaseAccepts] using ha
      rw [hp, hl]
      exact ⟨_, 0, exec_absorb_full hp ((lenFull_iff s).1 hl), rfl, rfl, rfl, .inr rfl⟩
    · have hroom : ∀ b, i = .absorb b → lenFull s = false := by simpa using hfull
      rw [acceptance_accepted ha hroom]
      obtain ⟨t, d, ht, hph, hcmd, hrsp, hd⟩ := h.exec_accepted hw ha hroom
      exact ⟨t, d, ht, hcmd, hrsp, hph, hd⟩

/-- A step with a reserved token at the head of the channel (R182). -/
theorem step_of_reserved {s : State} {tok : Token} {rest : List HostEvent} {why : Reserved}
    (hs : s.cmdChan = .token tok :: rest) (hd : decode tok = .reserved why) :
    step s = .next ((s.setCmdChan rest).raise .errEnc) := by
  simp only [step, hs, serve, execToken, hd]

/-- Settles O6: a reserved token is the table's last row, any other its command's. -/
theorem everyTokenIsAnsweredByTheAcceptanceTable : Obligations.EveryTokenIsAnsweredByTheAcceptanceTable := by
  intro s tok rest h hs
  cases hd : decode tok with
  | reserved why =>
    rw [acceptance_reserved]
    exact ⟨_, 0, step_of_reserved hs hd, rfl, rfl, rfl, .inr rfl⟩
  | instr i =>
    obtain ⟨hw, -⟩ := encode_of_decode hd
    obtain ⟨t, d, ht, hcmd, hrsp, hph, hdata⟩ := (h.setCmdChan rest).exec_acceptance hw
    exact ⟨t, d, (step_of_token hs hd).trans ht, hcmd, hrsp, hph, by simpa using hdata⟩

/-! ### FAULTED (R189) -/

/-- The cause for which a token other than INIT's is rejected in FAULTED. -/
def faultedReject (tok : Token) : Reject :=
  match decode tok with
  | .reserved _ => .errEnc
  | .instr _ => .errSeq

/-- A step in FAULTED rejects every token but INIT's. -/
theorem step_faulted_rejects {s : State} {tok : Token} {rest : List HostEvent} (hp : s.PH = .faulted)
    (hs : s.cmdChan = .token tok :: rest) (hne : tok ≠ 0x000) :
    step s = .next ((s.setCmdChan rest).raise (faultedReject tok)) := by
  rw [faultedReject]
  cases hd : decode tok with
  | reserved why => exact step_of_reserved hs hd
  | instr i =>
    obtain ⟨hw, henc⟩ := encode_of_decode hd
    have hrej : phaseAccepts i (s.setCmdChan rest).PH = false := by
      rw [State.setCmdChan_PH, hp]
      cases i with
      | init => exact absurd henc.symm hne
      | _ => rfl
    exact (step_of_token hs hd).trans (exec_wrong_phase hw hrej)

/-- A run in FAULTED through tokens other than INIT's. -/
theorem run_faulted_rejects (toks : List Token) : ∀ {s : State} {rest : List HostEvent}, s.PH = .faulted →
    (∀ tok ∈ toks, tok ≠ 0x000) → s.cmdChan = toks.map .token ++ rest →
    ∃ t : State, Host.Core.run core toks.length s = .next t ∧ t.PH = .faulted ∧ t.cmdChan = rest ∧
      t.rspChan = s.rspChan ++ toks.map fun tok => respToken (.err (faultedReject tok)) 0 := by
  induction toks with
  | nil => exact fun {s _} hp _ hs => ⟨s, rfl, hp, hs, by simp⟩
  | cons tok toks ih =>
    intro s rest hp hne hs
    obtain ⟨hne0, hnes⟩ := List.forall_mem_cons.1 hne
    have hstep := step_faulted_rejects hp hs hne0
    obtain ⟨t, ht, hph, hcmd, hrsp⟩ :=
      ih (s := (s.setCmdChan (toks.map .token ++ rest)).raise (faultedReject tok)) (rest := rest) rfl hnes rfl
    exact ⟨t, (run_next hstep).trans ht, hph, hcmd, by simp [hrsp]⟩

/-- Settles O8: each token's reject is the cause the statement names. -/
theorem faultedRejectsEverythingButInit : Obligations.FaultedRejectsEverythingButInit := by
  intro toks s rest hp hne hs
  obtain ⟨t, ht, hph, hcmd, hrsp⟩ := run_faulted_rejects toks hp hne hs
  refine ⟨t, ht, hph, hcmd, hrsp.trans (congrArg _ (List.map_congr_left fun tok _ => ?_))⟩
  rw [faultedReject]
  cases decode tok <;> rfl

/-! ### The length bound (R184) -/

/-- One byte below the bound of the counter's 61 bits. -/
theorem succ_LEN_eq_lenMax (s : State) : s.LEN.toNat + 1 = Config.lenMax ↔ s.LEN.toNat = 2 ^ 61 - 1 := by
  rw [Config.lenMax]
  omega

/-- An ABSORB answered ErrLen was in ACTIVE at the bound: out of phase the answer is ErrSeq, with room it is OK. -/
theorem exec_absorb_errLen {b : Byte} {s t : State} (h : exec (.absorb b) s = .next t)
    (hrsp : t.rspChan = s.rspChan ++ [0x300]) : s.PH = .active ∧ s.LEN.toNat + 1 = Config.lenMax := by
  cases ha : phaseAccepts (.absorb b) s.PH with
  | false =>
    rw [exec_wrong_phase rfl ha] at h
    simp [← Host.Outcome.next.inj h] at hrsp
  | true =>
    have hp : s.PH = .active := by simpa [phaseAccepts] using ha
    cases hl : lenFull s with
    | true => exact ⟨hp, (lenFull_iff s).1 hl⟩
    | false =>
      obtain ⟨-, -, -, -, -, hok, -⟩ := absorbFrame b s t hp ((lenFull_eq_false_iff s).1 hl) h
      simp [hok] at hrsp

/-- Settles O17: the reject at the bound, its converse, and FINAL at every length. -/
theorem errLenOnlyAtTheLengthBound : Obligations.ErrLenOnlyAtTheLengthBound := by
  refine ⟨fun b s hp hl => ?_, fun b s t h hrsp => ?_, fun s h hp _ => ?_⟩
  · exact ⟨_, exec_absorb_full hp ((succ_LEN_eq_lenMax s).2 hl), rfl, rfl, rfl⟩
  · obtain ⟨hp, hl⟩ := exec_absorb_errLen h hrsp
    exact ⟨hp, (succ_LEN_eq_lenMax s).1 hl⟩
  · obtain ⟨t, ht, hph, -, hrsp⟩ := h.exec_final hp
    exact ⟨t, ht, hph, hrsp⟩

/-! ### What a reject lets a host see (R186) -/

/-- No accepted command enters FAULTED. -/
theorem acceptedPhase_ne_faulted {i : Instr} {ph : Phase} (h : phaseAccepts i ph = true) :
    acceptedPhase i ph ≠ .faulted := by
  intro hf
  cases i with
  | init => cases hf
  | absorb b => cases (show ph = .faulted from hf); cases h
  | final => cases hf
  | read k => cases (show ph = .faulted from hf); cases h

/-- A command that ends in FAULTED has answered with a reject. -/
theorem exec_faulted_responds {i : Instr} {s t : State} (h : exec i s = .next t) (hp : t.PH = .faulted) :
    ∃ e, t.rspChan = s.rspChan ++ [respToken (.err e) 0] := by
  obtain ⟨e, hrsp, -⟩ | ⟨-, -, hph, ha, -⟩ := exec_next_phase h
  · exact ⟨e, hrsp⟩
  · exact absurd (hph.symm.trans hp) (acceptedPhase_ne_faulted ha)

/-- Settles O21: what an answer in FAULTED tells, the reject itself, and that two engines in FAULTED with equal channels
have equal views. -/
theorem rejectHasNoOtherObservableEffect : Obligations.RejectHasNoOtherObservableEffect := by
  refine ⟨fun i s t h hp => ?_, fun e s => ⟨rfl, rfl, rfl⟩, fun s t hs ht hcmd hrsp => ?_⟩
  · obtain ⟨e, hrsp⟩ := exec_faulted_responds h hp
    obtain ⟨hcmd, -⟩ := exec_responds h
    exact ⟨e, hrsp, hcmd⟩
  · obtain ⟨s', t', hs', ht', hview⟩ := hiddenStateIsNeverObserved s t (.of_faulted hcmd hrsp hs ht)
    exact ⟨s', t', hs', ht', hview.rsp⟩

/-! ### Several engines (R198) -/

/-- A step of the engine at position n writes that engine's next state. -/
theorem stepEngine_of_step {es : System} {n : Nat} {s t : State} (hs : es[n]? = some s) (ht : step s = .next t) :
    stepEngine n es = .next (es.set n t) := by
  simp only [stepEngine, hs, ht]

/-- At a position without an engine a step changes nothing. -/
theorem stepEngine_of_none {es : System} {n : Nat} (hs : es[n]? = none) : stepEngine n es = .next es := by
  simp only [stepEngine, hs]

/-- All that a step at position n can do: write one state there, the same one in every list with the same engine there.
Without an engine there the write is out of range and changes nothing. -/
theorem stepEngine_next {es es' : System} {n : Nat} (h : stepEngine n es = .next es') :
    ∃ t, es' = es.set n t ∧ ∀ fs : System, fs[n]? = es[n]? → stepEngine n fs = .next (fs.set n t) := by
  suffices hall : ∃ t, ∀ fs : System, fs[n]? = es[n]? → stepEngine n fs = .next (fs.set n t) by
    obtain ⟨t, ht⟩ := hall
    exact ⟨t, Host.Outcome.next.inj (h.symm.trans (ht es rfl)), ht⟩
  cases hs : es[n]? with
  | none =>
    refine ⟨.reset, fun fs hfs => ?_⟩
    rw [stepEngine_of_none hfs, List.set_eq_of_length_le (List.getElem?_eq_none_iff.1 hfs)]
  | some s =>
    cases ht : step s with
    | next t => exact ⟨t, fun fs hfs => stepEngine_of_step hfs ht⟩
    | _ => simp [stepEngine, hs, ht] at h

/-- Settles O51: two steps write at two positions. -/
theorem enginesAreIndependent : Obligations.EnginesAreIndependent := by
  refine ⟨fun es es' n m h hmn => ?_, fun es n s t hs ht => ?_, fun es e1 e2 n m hnm h1 h2 => ?_⟩
  · obtain ⟨t, rfl, -⟩ := stepEngine_next h
    exact List.getElem?_set_ne hmn.symm
  · obtain ⟨hlt, -⟩ := List.getElem?_eq_some_iff.1 hs
    exact ⟨_, stepEngine_of_step hs ht, List.getElem?_set_self hlt⟩
  · obtain ⟨t, rfl, hn⟩ := stepEngine_next h1
    obtain ⟨u, rfl, hm⟩ := stepEngine_next h2
    refine ⟨_, hm _ (List.getElem?_set_ne hnm), ?_⟩
    rw [hn _ (List.getElem?_set_ne hnm.symm), List.set_comm _ _ hnm]

/-! ### A pause (R200) -/

/-- Settles O5: a step looks at the channel first. -/
theorem stepWithoutAnEventHoldsTheState : Obligations.StepWithoutAnEventHoldsTheState := by
  intro s hs
  simp only [step, hs]

end Sys2Proof.Machine

/-!
The reset and hazards family (70_reset_and_hazards.md): reset and INIT, progress, and the work of each command.
-/

namespace Sys2Proof.Machine

/-! ### Reset and INIT (R210 to R212) -/

/-- Settles O12: INIT and reset both enter Initialized, and two engines there with equal channels have equal views. -/
theorem resetAndInitAreObservedTheSame : Obligations.ResetAndInitAreObservedTheSame := by
  refine ⟨fun s => ⟨_, rfl, initialized_init s, rfl⟩, fun s => ⟨initialized_hwReset s, rfl⟩,
    fun s t hs ht hcmd hrsp => ?_⟩
  obtain ⟨s', t', hs', ht', hview⟩ := hiddenStateIsNeverObserved s t (.of_initialized hcmd hrsp hs ht)
  exact ⟨s', t', hs', ht', hview.rsp⟩

/-- Settles O11: neither reset event is answered, so the step is the reset of what is left on the channel. -/
theorem resetEventAnswersNothingAndRestores : Obligations.ResetEventAnswersNothingAndRestores := by
  intro s e rest hs he
  have hans : e.answered = false := by obtain rfl | ⟨tok, rfl⟩ := he <;> rfl
  exact ⟨_, step_reset hs hans, rfl, rfl, rfl, fun _ => rfl, rfl, rfl⟩

/-! ### Progress (R218) -/

/-- Settles O42: the invariant gives the next state, and a token's step appends its response. -/
theorem everyStepCompletes : Obligations.EveryStepCompletes := by
  intro s h
  obtain ⟨t, ht⟩ := step_completes h
  exact ⟨t, ht, fun _ _ hs => step_token_responds hs ht⟩

/-! ### The work of each command (R217) -/

/-- A sequence of two operations that answers is an answer of the first and one of the second from there. -/
theorem exceptBind_ok {α β : Type} {x : Except Fault α} {f : α → Except Fault β} {r : β} (h : x.bind f = .ok r) :
    ∃ a, x = .ok a ∧ f a = .ok r := by
  cases x with
  | ok a => exact ⟨a, rfl, h⟩
  | error e => cases h

theorem exceptMap_ok {α β : Type} {x : Except Fault α} {f : α → β} {r : β} (h : x.map f = .ok r) :
    ∃ a, x = .ok a ∧ r = f a := by
  cases x with
  | ok a => exact ⟨a, rfl, (Except.ok.inj h).symm⟩
  | error e => cases h

/-- A compression of the buffer that answers folds the buffer's own block into H, and keeps the buffer and LEN. -/
theorem compressBuf_folds {s t : State} (h : compressBuf s = .ok t) :
    t.H = foldBlock s.H (blockOf s.BUF) ∧ t.BUF = s.BUF ∧ t.LEN = s.LEN := by
  obtain ⟨X, hX, ht⟩ := compressBuf_next h
  obtain ⟨-, hblock⟩ := packBuf_next hX
  rw [ht, compressWith_H, hblock, foldBlock]
  exact ⟨rfl, compressWith_BUF _ _, compressWith_LEN _ _⟩

/-- ABSORB's check of the phase and of the length, both passed. -/
theorem absorb_accepted_iff (b : Byte) (s : State) :
    (phaseAccepts (.absorb b) s.PH && !lenFull s) = true ↔ s.PH = .active ∧ s.LEN.toNat + 1 < Config.lenMax := by
  rw [Bool.and_eq_true, Bool.not_eq_true', lenFull_eq_false_iff, phaseAccepts, beq_iff_eq]

theorem handed_absorb_active (b : Byte) {s : State} (hp : s.PH = .active) (hl : s.LEN.toNat + 1 < Config.lenMax) :
    handed (.absorb b) s = absorbBlocks b s := if_pos ((absorb_accepted_iff b s).2 ⟨hp, hl⟩)

theorem handed_final_active {s : State} (hp : s.PH = .active) : handed .final s = finalBlocks s :=
  if_pos (by simp [phaseAccepts, hp])

theorem length_absorbBlocks_le (b : Byte) (s : State) : (absorbBlocks b s).length ≤ 1 := by
  rw [absorbBlocks_eq]
  split
  · exact Nat.le_refl 1
  · exact Nat.zero_le 1

/-- Whatever the state, an ABSORB hands over at most one block. -/
theorem length_handed_absorb_le (b : Byte) (s : State) : (handed (.absorb b) s).length ≤ 1 := by
  rw [handed]
  split
  · exact length_absorbBlocks_le b s
  · exact Nat.zero_le 1

theorem length_finalBlocks (s : State) : (finalBlocks s).length = 1 ∨ (finalBlocks s).length = 2 := by
  rw [finalBlocks_eq]
  split
  · exact .inr rfl
  · exact .inl rfl

/-- A command that ends in FAULTED hands over no block (60_exceptions.md R187): had its checks passed, ABSORB would have
kept the phase ACTIVE and FINAL entered FINALIZED. -/
theorem handed_of_faulted {i : Instr} {s t : State} (h : exec i s = .next t) (hf : t.PH = .faulted) :
    handed i s = [] := by
  cases i with
  | init => rfl
  | absorb b =>
    refine if_neg fun hacc => ?_
    obtain ⟨hp, hl⟩ := (absorb_accepted_iff b s).1 hacc
    obtain ⟨-, -, -, hph, -⟩ := absorbFrame b s t hp hl h
    exact nomatch hf.symm.trans (hph.trans hp)
  | final =>
    refine if_neg fun hacc => ?_
    rw [exec_final_active (by simpa [phaseAccepts] using hacc)] at h
    obtain ⟨u, hu, ht⟩ := finish_next.1 h
    obtain ⟨X, v, hX, -⟩ := finalBody_ok hu
    simp [ht, hX] at hf
  | read k => rfl

/-- ABSORB's body that answers has folded into H the block it completes, if it completes one (R88). -/
theorem absorbBody_folds {b : Byte} {s u : State} (h : absorbBody b s = .ok u) :
    u.H = (absorbBlocks b s).foldl foldBlock s.H := by
  rw [absorbBody_eq] at h
  rw [absorbBlocks_eq]
  split at h
  · next hfull =>
    obtain ⟨hH, -⟩ := compressBuf_folds h
    rw [if_pos hfull, hH, stored_H, List.foldl_cons, List.foldl_nil]
  · next hroom => rw [if_neg hroom, ← Except.ok.inj h, stored_H, List.foldl_nil]

/-- FINAL's body that answers has folded its one or two blocks into H (R89): the second block is built in the buffer that
the first compression leaves as it was. -/
theorem finalBody_folds {s u : State} (h : finalBody s = .ok u) : u.H = (finalBlocks s).foldl foldBlock s.H := by
  rw [finalBlocks_eq]
  by_cases hf : 56 ≤ fill s
  · rw [finalBody_long hf] at h
    obtain ⟨w, hvw, hu⟩ := exceptMap_ok h
    obtain ⟨v, hv, hw⟩ := exceptBind_ok hvw
    obtain ⟨hvH, hvBUF, hvLEN⟩ := compressBuf_folds hv
    obtain ⟨hwH, -⟩ := compressBuf_folds hw
    have hbuf : (lengthened (cleared v)).BUF = (lengthened (cleared (padded s))).BUF := by
      simp only [lengthened, cleared, State.setBUF_BUF, State.setBUF_LEN, hvBUF, hvLEN]
    rw [if_pos hf, hu, State.setPH_H, hwH, hbuf, lengthened_H, cleared_H, hvH, padded_H, List.foldl_cons,
      List.foldl_cons, List.foldl_nil]
  · rw [finalBody_short (Nat.lt_of_not_le hf)] at h
    obtain ⟨w, hw, hu⟩ := exceptMap_ok h
    obtain ⟨hwH, -⟩ := compressBuf_folds hw
    rw [if_neg hf, hu, State.setPH_H, hwH, lengthened_H, padded_H, List.foldl_cons, List.foldl_nil]

/-- Settles O48: the counts of each command, and the two accepted bodies that fold. -/
theorem workOfEachCommand : Obligations.WorkOfEachCommand := by
  intro s t
  refine ⟨rfl, fun _ => rfl, fun b => length_handed_absorb_le b s, fun _ => handed_of_faulted, fun b h hp hl => ?_,
    fun h hp => ?_⟩
  · rw [exec_absorb_active hp hl] at h
    obtain ⟨u, hu, ht⟩ := finish_next.1 h
    rw [ht, State.respond_H, absorbBody_folds hu, handed_absorb_active b hp hl]
  · rw [exec_final_active hp] at h
    obtain ⟨u, hu, ht⟩ := finish_next.1 h
    rw [ht, State.respond_H, finalBody_folds hu, handed_final_active hp]
    exact ⟨length_finalBlocks s, rfl⟩

end Sys2Proof.Machine
